-- ==== Sys2Proof/Word.lean ====
section
/-! DEFINITION. The value types of the block: bytes, words, bits (00_scope.md R5, R7) and the plain data that the
Register Store is made of (10_state.md R10 to R13). The operations on them stand in `Machine/Store.lean`. -/

namespace Sys2Proof

/-- A byte is 8 bits (R7). -/
abbrev Byte := BitVec 8

/-- A word is 16 bits, `WORD_W` (R5, R7): a holding or input register, a CRC, an address, a quantity. -/
abbrev Word := BitVec 16

/-- A coil or discrete input holds exactly 0 or 1, `BIT_W` (R5, R12): `true` is 1. -/
abbrev Bit := Bool

/-- The two banks of 1-bit cells (R12): `CO` Coils and `DI` DiscreteInputs. -/
inductive BitBank where
  | co
  | di
deriving DecidableEq, Repr

/-- The two banks of 16-bit cells (R12): `HR` HoldingRegisters and `IR` InputRegisters. -/
inductive WordBank where
  | hr
  | ir
deriving DecidableEq, Repr

/-- The cells of one 1-bit bank: address and value, addresses strictly rising, every unlisted cell 0 (R12, R13). -/
abbrev BitCells := List (Nat × Bit)

/-- The cells of one 16-bit bank: address and value, addresses strictly rising, every unlisted cell 0 (R12, R13). -/
abbrev WordCells := List (Nat × Word)

/-- A device "holds four fixed-size register banks" (R12). -/
structure Device where
  co : BitCells
  di : BitCells
  hr : WordCells
  ir : WordCells
deriving DecidableEq, Repr, Inhabited

/-- The Register Store (R10, R11): the existing devices by id, ids strictly rising. `dev_valid[id] = 1` is "id is
listed", so that the cells of a device exist exactly while it is valid (R13). -/
abbrev Memory := List (Nat × Device)

end Sys2Proof
end

