-- ==== Sys2Proof/Syntax.lean ====
section
/-! DEFINITION. The instructions of the block: one constructor for each row of spec/opcode_table.json, and the values
they carry (10_state.md R14, R20, R23; 30_encoding.md R60, R66). -/

namespace Sys2Proof

/-- The closed set of protocol-tier outcomes (R23, R141). -/
inductive Exception where
  | success
  | illegalFunction
  | illegalDataAddress
  | slaveDeviceFailure
deriving DecidableEq, Repr, Inhabited

/-- What a dispatch slot can hold (R14): a default handler, an extension handler, or the explicit "not bound" entry. -/
inductive HandlerId where
  | unbound
  | rc
  | rdi
  | rhr
  | rir
  | wsc
  | wsr
  | wmc
  | wmr
  | ext (k : Nat)
deriving DecidableEq, Repr, Inhabited

/-- A byte-stream Frame (R20): the trailer is the CRC. -/
structure Frame where
  deviceId : Byte
  functionCode : Byte
  payload : List Byte
  trailer : Word
deriving DecidableEq, Repr

/-- What Decode answers (R91). -/
inductive Decoded where
  | frame (f : Frame)
  | shortFrame
  | checksumMismatch
deriving DecidableEq, Repr

/-- A codec unit `k` with a CRC accumulator of its own (R17): one for each port's Decode, one for the Serializer's
Encode. -/
inductive Codec where
  | port (p : Nat)
  | serializer
deriving DecidableEq, Repr

/-- The instructions, in the order of spec/opcode_table.json. A request carries the port it arrived on, its device id
and its payload; where a row covers several function codes it carries the free low bits of the code too. -/
inductive Instr where
  -- Bound function codes (R60, R101 to R104, R111 to R114).
  | rc (p : Nat) (dev : Byte) (payload : List Byte)
  | rdi (p : Nat) (dev : Byte) (payload : List Byte)
  | rhr (p : Nat) (dev : Byte) (payload : List Byte)
  | rir (p : Nat) (dev : Byte) (payload : List Byte)
  | wsc (p : Nat) (dev : Byte) (payload : List Byte)
  | wsr (p : Nat) (dev : Byte) (payload : List Byte)
  | wmc (p : Nat) (dev : Byte) (payload : List Byte)
  | wmr (p : Nat) (dev : Byte) (payload : List Byte)
  -- Function codes that are unbound after reset (R60, R61, R126).
  | unbound00 (p : Nat) (dev : Byte) (payload : List Byte)
  | unbound07 (p : Nat) (dev : Byte) (payload : List Byte)
  | unbound08 (p : Nat) (dev : Byte) (low : BitVec 2) (payload : List Byte)
  | unbound0C (p : Nat) (dev : Byte) (low : BitVec 1) (payload : List Byte)
  | unbound0E (p : Nat) (dev : Byte) (payload : List Byte)
  | unbound11 (p : Nat) (dev : Byte) (payload : List Byte)
  | unbound12 (p : Nat) (dev : Byte) (low : BitVec 1) (payload : List Byte)
  | unbound14 (p : Nat) (dev : Byte) (low : BitVec 2) (payload : List Byte)
  | unbound18 (p : Nat) (dev : Byte) (low : BitVec 3) (payload : List Byte)
  | unbound20 (p : Nat) (dev : Byte) (low : BitVec 5) (payload : List Byte)
  | unbound40 (p : Nat) (dev : Byte) (low : BitVec 6) (payload : List Byte)
  | unbound80 (p : Nat) (dev : Byte) (low : BitVec 7) (payload : List Byte)
  -- Management commands (R66, R130 to R132).
  | createdev (id : Byte)
  | removedev (id : Byte)
  | reghandler (fc : Byte) (h : HandlerId)
  | mgReserved
  -- Checksum Unit (R80, R82 to R84).
  | crc16 (bytes : List Byte)
  | crcInit (k : Codec)
  | crcUpdate (k : Codec) (b : Byte)
  | crcRead (k : Codec)
  -- Frame Codec (R91, R93 to R95).
  | decode (p : Nat) (bytes : List Byte)
  | encode (f : Frame)
  | copy (f : Frame)
  | setexc (f : Frame) (e : Exception)
  -- Request Serializer (R121 to R123, R125, R127 to R129).
  | submit (p : Nat) (f : Frame)
  | accept
  | complete
  | broadcast (f : Frame)
  | dropunknown (p : Nat) (f : Frame)
  | unicast (p : Nat) (f : Frame)
  | respond (p : Nat) (r : Frame)
deriving DecidableEq, Repr

/-- What selects an instruction from outside: a packet on `RX[p]` (R51, R60), or the tuple
`(mg_op, mg_id, mg_fc, mg_handler)` on `MG` (R66). -/
inductive Encoded where
  | packet (p : Nat) (bytes : List Byte)
  | command (op : BitVec 2) (id fc : Byte) (h : HandlerId)
deriving DecidableEq, Repr

/-- Why the decoder gives no instruction: the framing-tier failures of R140. -/
inductive DecodeError where
  | shortFrame
  | checksumMismatch
deriving DecidableEq, Repr

end Sys2Proof
end

