-- ==== Sys2Proof/Config.lean ====
section
/-! DEFINITION. What the spec fixes for every block (00_scope.md R5), and the one parameter that it leaves open to the
environment and that a run can meet: the bodies of the extension handlers (R6, R137). The numeric exception codes and
the default bindings stand in `Machine/`, where a repair can reach them. -/

namespace Sys2Proof.Config

/-- `CRC_POLY` (R5), reflected form. -/
def crcPoly : Word := 0xA001#16

/-- `CRC_INIT` (R5). -/
def crcInit : Word := 0xFFFF#16

/-- `MIN_FRAME` (R5). -/
def minFrame : Nat := 5

/-- `BANK_SIZE` (R5): cells of one bank, indices 0..65535. -/
def bankSize : Nat := 65536

/-- `DEV_MIN` (R5). -/
def devMin : Nat := 1

/-- `DEV_MAX` (R5). -/
def devMax : Nat := 247

/-- `DEV_BROADCAST` (R5). -/
def devBroadcast : Byte := 0#8

/-- `EXC_FLAG` (R5). -/
def excFlag : Byte := 0x80#8

/-- `ADDR_LIMIT` (R5): the inclusive upper bound of `endAddress`. -/
def addrLimit : Nat := 65536

/-- One bank cell that an extension handler asks to have written (R137). -/
inductive CellWrite where
  | bit (d : Nat) (b : BitBank) (a : Nat) (v : Bit)
  | word (d : Nat) (b : WordBank) (a : Nat) (v : Word)
deriving DecidableEq, Repr

/-- What one invocation of an extension handler comes back with (R137): the cells it writes, in order, its response
payload and exactly one Exception. -/
structure ExtResult where
  writes : List CellWrite
  payload : List Byte
  exc : Exception
deriving DecidableEq, Repr, Inhabited

/-- `EXT_HANDLERS` (R6, R137, U14): the open family `EXT(k)`, a total function of `(store, d, payload)`. It has no body, so
that nothing can be proved of what one particular handler does (log entry 3). -/
opaque extHandler (k : Nat) (m : Memory) (d : Nat) (payload : List Byte) : ExtResult

end Sys2Proof.Config
end

