-- ==== Sys2Proof/Machine/Checksum.lean ====
section
/-! DEFINITION. The Checksum Unit as pure functions (40_crc.md R80, R81). -/

namespace Sys2Proof.Machine

/-- One of the eight shifts of `CRC_STEP` (R81): logical right shift, then the polynomial is XORed in if the bit shifted
out was 1. -/
def crcShift (c : Word) : Word :=
  if c.getLsbD 0 then (c >>> 1) ^^^ Config.crcPoly else c >>> 1

/-- `CRC_STEP(crc, b)` (R81): the byte is XORed into the low byte, then eight shifts. -/
def crcStep (c : Word) (b : Byte) : Word :=
  Nat.repeat crcShift 8 (c ^^^ b.setWidth 16)

/-- `CRC16(s)` (R80): from `0xFFFF`, one `CRC_STEP` a byte in index order; no final XOR. -/
def crc16 (s : List Byte) : Word :=
  s.foldl crcStep Config.crcInit

end Sys2Proof.Machine
end

