-- ==== Sys2Proof/Machine/Flags.lean ====
section
/-! DEFINITION. The block has no flags, condition codes or sticky error bits, and no operation has a flag side effect
(10_state.md R19). What stands in their place is how an outcome is coded: the exception code and the exception bit of a
response (60_exceptions.md R141; 00_scope.md R5) and the status numbers on `MG` (30_encoding.md R66). -/

namespace Sys2Proof.Machine

/-- `EXC_CODE` (R6, R141, decision D2; log entry 6). -/
def excCode : Exception → Byte
  | .success => 0#8
  | .illegalFunction => 1#8
  | .illegalDataAddress => 2#8
  | .slaveDeviceFailure => 4#8

/-- The function code of an exception response (R47 item 9, R58): `functionCode | 0x80`. -/
def excFunctionCode (fc : Byte) : Byte := fc ||| Config.excFlag

/-- The result of a management command (R66, R144). -/
inductive MgStatus where
  | ok
  | alreadyExists
  | notFound
  | outOfRange
deriving DecidableEq, Repr

/-- The numbers of `mg_status` (R66, decision D19). -/
def MgStatus.code : MgStatus → BitVec 2
  | .ok => 0#2
  | .alreadyExists => 1#2
  | .notFound => 2#2
  | .outOfRange => 3#2

end Sys2Proof.Machine
end

