-- ==== Sys2Proof/Machine/Store.lean ====
section
/-! DEFINITION. The named operations over the Register Store (10_state.md R11 to R13; 00_scope.md R7 `MemRead`,
`MemWrite`). Lists of (key, value) pairs are kept in one canonical form, `Memory.wf`. -/

namespace Sys2Proof

/-! ### Lists keyed by a number -/

/-- The value at a key. -/
def Assoc.find? {α : Type} (k : Nat) : List (Nat × α) → Option α
  | [] => none
  | (j, v) :: t => if j = k then some v else Assoc.find? k t

/-- Store a value at a key, keeping the keys rising. -/
def Assoc.put {α : Type} (k : Nat) (v : α) : List (Nat × α) → List (Nat × α)
  | [] => [(k, v)]
  | (j, w) :: t =>
    if k < j then (k, v) :: (j, w) :: t
    else if j = k then (k, v) :: t
    else (j, w) :: Assoc.put k v t

/-- Remove a key. -/
def Assoc.drop {α : Type} (k : Nat) (l : List (Nat × α)) : List (Nat × α) :=
  l.filter fun e => e.1 != k

/-- Keys strictly rising. -/
abbrev Assoc.rising {α : Type} (l : List (Nat × α)) : Prop :=
  l.Pairwise fun x y => x.1 < y.1

/-- Read a cell of a list in which an unlisted cell reads as `z`. -/
def Cells.read {α : Type} (z : α) (l : List (Nat × α)) (a : Nat) : α :=
  (Assoc.find? a l).getD z

/-- Write a cell of such a list; writing `z` removes the entry, so that equal contents are equal lists. -/
def Cells.write {α : Type} [DecidableEq α] (z : α) (l : List (Nat × α)) (a : Nat) (v : α) : List (Nat × α) :=
  if v = z then Assoc.drop a l else Assoc.put a v l

/-- The canonical form of one bank: addresses rising and below `BANK_SIZE`, no entry equal to what an unlisted cell reads
as. -/
abbrev Cells.wf {α : Type} [DecidableEq α] (z : α) (l : List (Nat × α)) : Prop :=
  Assoc.rising l ∧ ∀ e ∈ l, e.1 < Config.bankSize ∧ e.2 ≠ z

/-! ### One device -/

/-- Four zero-initialized banks (R13, R130). -/
def Device.zero : Device := { co := [], di := [], hr := [], ir := [] }

def Device.bits (dev : Device) : BitBank → BitCells
  | .co => dev.co
  | .di => dev.di

def Device.words (dev : Device) : WordBank → WordCells
  | .hr => dev.hr
  | .ir => dev.ir

def Device.setBits (dev : Device) (b : BitBank) (l : BitCells) : Device :=
  match b with
  | .co => { dev with co := l }
  | .di => { dev with di := l }

def Device.setWords (dev : Device) (b : WordBank) (l : WordCells) : Device :=
  match b with
  | .hr => { dev with hr := l }
  | .ir => { dev with ir := l }

/-- `MemRead` of a 1-bit cell (R7). -/
def Device.readBit (dev : Device) (b : BitBank) (a : Nat) : Bit :=
  Cells.read false (dev.bits b) a

/-- `MemRead` of a 16-bit cell (R7). -/
def Device.readWord (dev : Device) (b : WordBank) (a : Nat) : Word :=
  Cells.read 0#16 (dev.words b) a

/-- `MemWrite` of a 1-bit cell (R7). -/
def Device.writeBit (dev : Device) (b : BitBank) (a : Nat) (v : Bit) : Device :=
  dev.setBits b (Cells.write false (dev.bits b) a v)

/-- `MemWrite` of a 16-bit cell (R7). -/
def Device.writeWord (dev : Device) (b : WordBank) (a : Nat) (v : Word) : Device :=
  dev.setWords b (Cells.write 0#16 (dev.words b) a v)

/-- The four banks are in canonical form. -/
abbrev Device.wf (dev : Device) : Prop :=
  Cells.wf false dev.co ∧ Cells.wf false dev.di ∧ Cells.wf 0#16 dev.hr ∧ Cells.wf 0#16 dev.ir

/-! ### The store -/

/-- The banks of device `d`, if it is registered. -/
def Memory.device? (m : Memory) (d : Nat) : Option Device := Assoc.find? d m

/-- `dev_valid[d]` (R11). -/
def Memory.devValid (m : Memory) (d : Nat) : Bool := (m.device? d).isSome

/-- Ids 1..247 that are registered, ascending: the set that a broadcast reads once, at its start (R125). -/
def Memory.registered (m : Memory) : List Nat :=
  (List.range' Config.devMin (Config.devMax + 1 - Config.devMin)).filter m.devValid

/-- Replace or add the banks of a device. -/
def Memory.putDevice (m : Memory) (d : Nat) (dev : Device) : Memory := Assoc.put d dev m

/-- Delete a device and its memory (R13, R131). -/
def Memory.dropDevice (m : Memory) (d : Nat) : Memory := Assoc.drop d m

/-- A 1-bit cell of the store; it exists exactly while its device does and its index is below `BANK_SIZE` (R12, R13). -/
def Memory.bit? (m : Memory) (d : Nat) (b : BitBank) (a : Nat) : Option Bit :=
  if a < Config.bankSize then (m.device? d).map fun dev => dev.readBit b a else none

/-- A 16-bit cell of the store; it exists exactly while its device does and its index is below `BANK_SIZE` (R12, R13). -/
def Memory.word? (m : Memory) (d : Nat) (b : WordBank) (a : Nat) : Option Word :=
  if a < Config.bankSize then (m.device? d).map fun dev => dev.readWord b a else none

/-- The canonical form of the store: ids rising and in 1..247, the banks of every device canonical. -/
abbrev Memory.wf (m : Memory) : Prop :=
  Assoc.rising m ∧ ∀ e ∈ m, (Config.devMin ≤ e.1 ∧ e.1 ≤ Config.devMax) ∧ e.2.wf

/-- The store after reset (R26): `DEFAULT_DEVICES` is `{1}` (decision D3), with four zero-initialized banks. -/
def Memory.reset : Memory := [(1, Device.zero)]

/-- A write that an extension handler asks for. The contract of R137 lets it write only bank cells of existing devices:
anything else is no cell, and nothing is written (log entry 3). -/
def Memory.applyWrite (m : Memory) (w : Config.CellWrite) : Memory :=
  match w with
  | .bit d b a v =>
    match m.device? d with
    | none => m
    | some dev => if a < Config.bankSize then m.putDevice d (dev.writeBit b a v) else m
  | .word d b a v =>
    match m.device? d with
    | none => m
    | some dev => if a < Config.bankSize then m.putDevice d (dev.writeWord b a v) else m

end Sys2Proof
end

