-- ==== Sys2Proof/Machine/Operands.lean ====
section
/-! DEFINITION. Operand forms: byte and bit order (20_memory.md R31 to R33), the three request formats (30_encoding.md R53
to R55, R59), the common prologue with its range check (42_read_functions.md R100, 20_memory.md R37, R38) and the packing
helpers (R105, R106, R115, R48). -/

namespace Sys2Proof.Machine

/-- `lo8(v)` (R7). -/
def lo8 (v : Word) : Byte := v.extractLsb' 0 8

/-- `hi8(v)` (R7). -/
def hi8 (v : Word) : Byte := v.extractLsb' 8 8

/-- `be16(v)` (R7). -/
def be16 (v : Word) : List Byte := [hi8 v, lo8 v]

/-- `le16(v)` (R7). -/
def le16 (v : Word) : List Byte := [lo8 v, hi8 v]

/-- The 16-bit value with the given high and low bytes. -/
def word (hi lo : Byte) : Word := (hi.setWidth 16 <<< 8) ||| lo.setWidth 16

/-- The byte at an index. The rules read only bytes that are there. -/
def byteAt (s : List Byte) (i : Nat) : Byte := s.getD i 0#8

/-- `BE16(s, i)` (R7, R31). -/
def readBE16 (s : List Byte) (i : Nat) : Word := word (byteAt s i) (byteAt s (i + 1))

/-- `LE16(s, i)` (R7, R33). -/
def readLE16 (s : List Byte) (i : Nat) : Word := word (byteAt s (i + 1)) (byteAt s i)

/-- The request formats A, B and C (R53 to R55). -/
inductive Format where
  | a
  | b
  | c
deriving DecidableEq, Repr

/-- The bytes a format needs (R53 to R55; R100 step 2). -/
def Format.minLength : Format → Nat
  | .a => 4
  | .b => 4
  | .c => 5

/-- Formats A and C carry a quantity and are range checked; format B is not (R37, R38). -/
def Format.ranged : Format → Bool
  | .a => true
  | .b => false
  | .c => true

/-- What the prologue hands to a handler: the banks of its device and the two 16-bit fields. -/
structure Fields where
  dev : Device
  f0 : Word
  f1 : Word
deriving DecidableEq, Repr

/-- The range check of R37 fails: `startAddress + quantity`, a natural number without wrap, is above `ADDR_LIMIT`. -/
def outOfRange (start quantity : Word) : Bool :=
  decide (start.toNat + quantity.toNat > Config.addrLimit)

/-- The prologue common to the eight default handlers (R100): device lookup, length, fields, range, in this order. -/
def prologue (m : Memory) (d : Nat) (payload : List Byte) (fmt : Format) : Except Exception Fields :=
  match m.device? d with
  | none => .error .slaveDeviceFailure
  | some dev =>
    if payload.length < fmt.minLength then .error .illegalDataAddress
    else if fmt.ranged && outOfRange (readBE16 payload 0) (readBE16 payload 2) then .error .illegalDataAddress
    else .ok { dev := dev, f0 := readBE16 payload 0, f1 := readBE16 payload 2 }

/-- `count8(nb)` (R48): the low 8 bits of the number of data bytes. -/
def count8 (nb : Nat) : Byte := BitVec.ofNat 8 nb

/-- The byte whose bit `i` is `f i` (bit 0 the least significant). -/
def byteOfBits (f : Nat → Bit) : Byte :=
  (BitVec.ofBoolListLE [f 0, f 1, f 2, f 3, f 4, f 5, f 6, f 7] : BitVec 8)

/-- `PackBits` (R105, R32): bit `i` of the run, cell `a + i`, stands in bit `i mod 8` of byte `i div 8`; unused high bits
of the last byte are 0. -/
def packBits (dev : Device) (b : BitBank) (a q : Nat) : List Byte :=
  (List.range ((q + 7) / 8)).map fun j =>
    byteOfBits fun i => if 8 * j + i < q then dev.readBit b (a + (8 * j + i)) else false

/-- `PackWords` (R106): each register big-endian, in ascending address order. -/
def packWords (dev : Device) (b : WordBank) (a q : Nat) : List Byte :=
  (List.range q).flatMap fun i => be16 (dev.readWord b (a + i))

/-- `UnpackBit(data, i)` (R115). -/
def unpackBit (data : List Byte) (i : Nat) : Bit := (byteAt data (i / 8)).getLsbD (i % 8)

/-- Write `q` cells of a 1-bit bank from `a`, in ascending address order. -/
def writeBits (dev : Device) (b : BitBank) (a q : Nat) (f : Nat → Bit) : Device :=
  (List.range q).foldl (fun dev i => dev.writeBit b (a + i) (f i)) dev

/-- Write `q` cells of a 16-bit bank from `a`, in ascending address order. -/
def writeWords (dev : Device) (b : WordBank) (a q : Nat) (f : Nat → Word) : Device :=
  (List.range q).foldl (fun dev i => dev.writeWord b (a + i) (f i)) dev

/-- `Echo(payload)` (R57, R110): the first four request payload bytes. -/
def echo (payload : List Byte) : List Byte := payload.take 4

end Sys2Proof.Machine
end

