-- ==== Sys2Proof/Machine/FrameCodec.lean ====
section
/-! DEFINITION. The Frame Codec, byte-stream variant, as pure functions (41_codec.md R90 to R95). -/

namespace Sys2Proof.Machine

/-- The bytes of a frame that its CRC covers: all but the trailer (R51). -/
def frameBody (f : Frame) : List Byte := f.deviceId :: f.functionCode :: f.payload

/-- The part of a packet before its two trailer bytes (R51). -/
def packetBody (s : List Byte) : List Byte := s.take (s.length - 2)

/-- `Decode(s)` (R91): length first, then the little-endian trailer against the CRC of all bytes before it. -/
def decodePacket (s : List Byte) : Decoded :=
  if s.length < Config.minFrame then .shortFrame
  else if readLE16 s (s.length - 2) ≠ crc16 (packetBody s) then .checksumMismatch
  else
    .frame
      { deviceId := byteAt s 0
        functionCode := byteAt s 1
        payload := (packetBody s).drop 2
        trailer := readLE16 s (s.length - 2) }

/-- `Encode(f)` (R93): the trailer of `f` is ignored and the CRC appended afresh, low byte first. -/
def encodeFrame (f : Frame) : List Byte :=
  frameBody f ++ le16 (crc16 (frameBody f))

/-- `Copy(f)` (R94): a value copy. -/
def copyFrame (f : Frame) : Frame :=
  { deviceId := f.deviceId, functionCode := f.functionCode, payload := f.payload, trailer := f.trailer }

/-- `SetException(f, e)` (R95): function code `| 0x80`, payload the one code byte. -/
def setException (f : Frame) (e : Exception) : Frame :=
  { f with functionCode := excFunctionCode f.functionCode, payload := [excCode e] }

/-- The §3 invariant of a Frame that Decode returned (R20): at least one payload byte, and the trailer is its CRC. -/
abbrev decodedFrame (f : Frame) : Prop :=
  f.payload ≠ [] ∧ f.trailer = crc16 (frameBody f)

end Sys2Proof.Machine
end

