-- ==== Sys2Proof/WellFormed.lean ====
section
/-! DEFINITION. Which terms of `Instr` are instructions that the block can meet. -/

namespace Sys2Proof

open Machine in
/-- A well-formed instruction. A received request has at least one payload byte (R91); `Submit` takes a Frame that Decode
returned (R121); `SetException` is called only with a failure (R95, U11); a broadcast is addressed to id 0 and a unicast is
not (R124). -/
def Instr.wellFormed : Instr → Bool
  | .rc _ _ payload => !payload.isEmpty
  | .rdi _ _ payload => !payload.isEmpty
  | .rhr _ _ payload => !payload.isEmpty
  | .rir _ _ payload => !payload.isEmpty
  | .wsc _ _ payload => !payload.isEmpty
  | .wsr _ _ payload => !payload.isEmpty
  | .wmc _ _ payload => !payload.isEmpty
  | .wmr _ _ payload => !payload.isEmpty
  | .unbound00 _ _ payload => !payload.isEmpty
  | .unbound07 _ _ payload => !payload.isEmpty
  | .unbound08 _ _ _ payload => !payload.isEmpty
  | .unbound0C _ _ _ payload => !payload.isEmpty
  | .unbound0E _ _ payload => !payload.isEmpty
  | .unbound11 _ _ payload => !payload.isEmpty
  | .unbound12 _ _ _ payload => !payload.isEmpty
  | .unbound14 _ _ _ payload => !payload.isEmpty
  | .unbound18 _ _ _ payload => !payload.isEmpty
  | .unbound20 _ _ _ payload => !payload.isEmpty
  | .unbound40 _ _ _ payload => !payload.isEmpty
  | .unbound80 _ _ _ payload => !payload.isEmpty
  | .createdev _ => true
  | .removedev _ => true
  | .reghandler _ _ => true
  | .mgReserved => true
  | .crc16 _ => true
  | .crcInit _ => true
  | .crcUpdate _ _ => true
  | .crcRead _ => true
  | .decode _ _ => true
  | .encode _ => true
  | .copy _ => true
  | .setexc _ e => decide (e ≠ .success)
  | .submit _ f => decide (decodedFrame f)
  | .accept => true
  | .complete => true
  | .broadcast f => decide (f.deviceId = Config.devBroadcast) && !f.payload.isEmpty
  | .dropunknown _ f => decide (f.deviceId ≠ Config.devBroadcast) && !f.payload.isEmpty
  | .unicast _ f => decide (f.deviceId ≠ Config.devBroadcast) && !f.payload.isEmpty
  | .respond _ _ => true

end Sys2Proof
end

