-- ==== Sys2Proof/Decode.lean ====
section
/-! DEFINITION. From packets and management tuples to instructions and back (30_encoding.md R51, R60, R66). The decoder is
total on any bytes and rejects by name; the encoder is written from the same tables. -/

namespace Sys2Proof

open Machine

/-- The row of the function-code map (R60) that a request selects: `(fc & mask) == match`, in the table's order. The last
row, `0x80/0x80`, takes what the nineteen before it leave. -/
def instrOfRequest (p : Nat) (dev fc : Byte) (payload : List Byte) : Instr :=
  if fc &&& 0xFF#8 = 0x01#8 then .rc p dev payload
  else if fc &&& 0xFF#8 = 0x02#8 then .rdi p dev payload
  else if fc &&& 0xFF#8 = 0x03#8 then .rhr p dev payload
  else if fc &&& 0xFF#8 = 0x04#8 then .rir p dev payload
  else if fc &&& 0xFF#8 = 0x05#8 then .wsc p dev payload
  else if fc &&& 0xFF#8 = 0x06#8 then .wsr p dev payload
  else if fc &&& 0xFF#8 = 0x0F#8 then .wmc p dev payload
  else if fc &&& 0xFF#8 = 0x10#8 then .wmr p dev payload
  else if fc &&& 0xFF#8 = 0x00#8 then .unbound00 p dev payload
  else if fc &&& 0xFF#8 = 0x07#8 then .unbound07 p dev payload
  else if fc &&& 0xFC#8 = 0x08#8 then .unbound08 p dev (fc.extractLsb' 0 2) payload
  else if fc &&& 0xFE#8 = 0x0C#8 then .unbound0C p dev (fc.extractLsb' 0 1) payload
  else if fc &&& 0xFF#8 = 0x0E#8 then .unbound0E p dev payload
  else if fc &&& 0xFF#8 = 0x11#8 then .unbound11 p dev payload
  else if fc &&& 0xFE#8 = 0x12#8 then .unbound12 p dev (fc.extractLsb' 0 1) payload
  else if fc &&& 0xFC#8 = 0x14#8 then .unbound14 p dev (fc.extractLsb' 0 2) payload
  else if fc &&& 0xF8#8 = 0x18#8 then .unbound18 p dev (fc.extractLsb' 0 3) payload
  else if fc &&& 0xE0#8 = 0x20#8 then .unbound20 p dev (fc.extractLsb' 0 5) payload
  else if fc &&& 0xC0#8 = 0x40#8 then .unbound40 p dev (fc.extractLsb' 0 6) payload
  else .unbound80 p dev (fc.extractLsb' 0 7) payload

/-- The request instruction that a decoded Frame on port `p` is. -/
def instrOfFrame (p : Nat) (f : Frame) : Instr :=
  instrOfRequest p f.deviceId f.functionCode f.payload

/-- The management instruction of a tuple (R66): each operation reads only its own operands. -/
def instrOfCommand (op : BitVec 2) (id fc : Byte) (h : HandlerId) : Instr :=
  if op = 0#2 then .createdev id
  else if op = 1#2 then .removedev id
  else if op = 2#2 then .reghandler fc h
  else .mgReserved

/-- The decoder: a packet decodes through the Frame Codec (R91) or is rejected by the name of its framing failure; a
management tuple always decodes. -/
def decode : Encoded → Except DecodeError Instr
  | .packet p bytes =>
    match decodePacket bytes with
    | .frame f => .ok (instrOfFrame p f)
    | .shortFrame => .error .shortFrame
    | .checksumMismatch => .error .checksumMismatch
  | .command op id fc h => .ok (instrOfCommand op id fc h)

/-- A request as R60 sees it: port, device id, function code, payload. -/
structure RequestView where
  port : Nat
  dev : Byte
  fc : Byte
  payload : List Byte
deriving DecidableEq, Repr

/-- The request that an instruction is, if it is one: its function code is the row's `match` with the row's free bits
filled in (R60). -/
def Instr.request? : Instr → Option RequestView
  | .rc p dev payload => some ⟨p, dev, 0x01#8, payload⟩
  | .rdi p dev payload => some ⟨p, dev, 0x02#8, payload⟩
  | .rhr p dev payload => some ⟨p, dev, 0x03#8, payload⟩
  | .rir p dev payload => some ⟨p, dev, 0x04#8, payload⟩
  | .wsc p dev payload => some ⟨p, dev, 0x05#8, payload⟩
  | .wsr p dev payload => some ⟨p, dev, 0x06#8, payload⟩
  | .wmc p dev payload => some ⟨p, dev, 0x0F#8, payload⟩
  | .wmr p dev payload => some ⟨p, dev, 0x10#8, payload⟩
  | .unbound00 p dev payload => some ⟨p, dev, 0x00#8, payload⟩
  | .unbound07 p dev payload => some ⟨p, dev, 0x07#8, payload⟩
  | .unbound08 p dev low payload => some ⟨p, dev, 0x08#8 ||| low.setWidth 8, payload⟩
  | .unbound0C p dev low payload => some ⟨p, dev, 0x0C#8 ||| low.setWidth 8, payload⟩
  | .unbound0E p dev payload => some ⟨p, dev, 0x0E#8, payload⟩
  | .unbound11 p dev payload => some ⟨p, dev, 0x11#8, payload⟩
  | .unbound12 p dev low payload => some ⟨p, dev, 0x12#8 ||| low.setWidth 8, payload⟩
  | .unbound14 p dev low payload => some ⟨p, dev, 0x14#8 ||| low.setWidth 8, payload⟩
  | .unbound18 p dev low payload => some ⟨p, dev, 0x18#8 ||| low.setWidth 8, payload⟩
  | .unbound20 p dev low payload => some ⟨p, dev, 0x20#8 ||| low.setWidth 8, payload⟩
  | .unbound40 p dev low payload => some ⟨p, dev, 0x40#8 ||| low.setWidth 8, payload⟩
  | .unbound80 p dev low payload => some ⟨p, dev, 0x80#8 ||| low.setWidth 8, payload⟩
  | .createdev _ => none
  | .removedev _ => none
  | .reghandler _ _ => none
  | .mgReserved => none
  | .crc16 _ => none
  | .crcInit _ => none
  | .crcUpdate _ _ => none
  | .crcRead _ => none
  | .decode _ _ => none
  | .encode _ => none
  | .copy _ => none
  | .setexc _ _ => none
  | .submit _ _ => none
  | .accept => none
  | .complete => none
  | .broadcast _ => none
  | .dropunknown _ _ => none
  | .unicast _ _ => none
  | .respond _ _ => none

/-- The tuple that a management instruction is (R66). The operands an operation does not use are 0 and `UNBOUND`. -/
def Instr.command? : Instr → Option Encoded
  | .createdev id => some (.command 0#2 id 0#8 .unbound)
  | .removedev id => some (.command 1#2 id 0#8 .unbound)
  | .reghandler fc h => some (.command 2#2 0#8 fc h)
  | .mgReserved => some (.command 3#2 0#8 0#8 .unbound)
  | .rc _ _ _ => none
  | .rdi _ _ _ => none
  | .rhr _ _ _ => none
  | .rir _ _ _ => none
  | .wsc _ _ _ => none
  | .wsr _ _ _ => none
  | .wmc _ _ _ => none
  | .wmr _ _ _ => none
  | .unbound00 _ _ _ => none
  | .unbound07 _ _ _ => none
  | .unbound08 _ _ _ _ => none
  | .unbound0C _ _ _ _ => none
  | .unbound0E _ _ _ => none
  | .unbound11 _ _ _ => none
  | .unbound12 _ _ _ _ => none
  | .unbound14 _ _ _ _ => none
  | .unbound18 _ _ _ _ => none
  | .unbound20 _ _ _ _ => none
  | .unbound40 _ _ _ _ => none
  | .unbound80 _ _ _ _ => none
  | .crc16 _ => none
  | .crcInit _ => none
  | .crcUpdate _ _ => none
  | .crcRead _ => none
  | .decode _ _ => none
  | .encode _ => none
  | .copy _ => none
  | .setexc _ _ => none
  | .submit _ _ => none
  | .accept => none
  | .complete => none
  | .broadcast _ => none
  | .dropunknown _ _ => none
  | .unicast _ _ => none
  | .respond _ _ => none

/-- The packet of a request (R51, R67): the frame followed by `le16(CRC16(frame))`. -/
def packetOf (dev fc : Byte) (payload : List Byte) : List Byte :=
  (dev :: fc :: payload) ++ le16 (crc16 (dev :: fc :: payload))

/-- The encoder. The rows of the opcode table whose format is INTERNAL have no encoding ("not selected by any bit
pattern"), so they encode to nothing. -/
def encode (i : Instr) : Option Encoded :=
  match i.request? with
  | some r => some (.packet r.port (packetOf r.dev r.fc r.payload))
  | none => i.command?

/-- The packet that stands for a function-code row of the opcode table, given the row's bits: bits 7..0 of `w` are the
function code (R60), later bits fill the payload from its first byte, everything else is 0: broadcast address, zero
payload, long enough for every format (log entry 12). -/
def tablePacket (w : Nat) : List Byte :=
  packetOf 0#8 (BitVec.ofNat 8 w)
    [BitVec.ofNat 8 (w / 2 ^ 8), BitVec.ofNat 8 (w / 2 ^ 16), BitVec.ofNat 8 (w / 2 ^ 24), BitVec.ofNat 8 (w / 2 ^ 32),
      BitVec.ofNat 8 (w / 2 ^ 40)]

/-- The stimulus that a row's bits stand for. A row of fewer than 8 bits is an `mg_op` (R66); every other row is a function
code (log entry 12). -/
def tableStimulus (nbits w : Nat) : Encoded :=
  if nbits < 8 then .command (BitVec.ofNat 2 w) 0#8 0#8 .unbound else .packet 0 (tablePacket w)

/-- The instruction that the decoder reads from a row's bits. -/
def decodeTableWord (nbits w : Nat) : Option Instr :=
  match decode (tableStimulus nbits w) with
  | .ok i => some i
  | .error _ => none

end Sys2Proof
end

