-- ==== Sys2Proof/Machine/Handlers.lean ====
section
/-! DEFINITION. The eight default handlers (42_read_functions.md R101 to R104; 43_write_functions.md R111 to R114), the
extension handlers (44_serializer_and_management.md R137), the choice among them, and the default bindings of the dispatch table
(10_state.md R14). A handler has the shape
`H(store, d, payload) -> (store', respPayload, exception)` (00_scope.md R8). -/

namespace Sys2Proof.Machine

/-- What a handler comes back with (R8). -/
structure HandlerResult where
  mem : Memory
  payload : List Byte
  exc : Exception
deriving DecidableEq, Repr

/-- `raise E` (R7): empty payload, the exception, the store as it was. -/
def HandlerResult.raise (m : Memory) (e : Exception) : HandlerResult := ⟨m, [], e⟩

/-- The response payload of a read: one count byte, then the data (R56). -/
def countedData (data : List Byte) : List Byte := count8 data.length :: data

/-- Read Coils (R101). -/
def handlerRc (m : Memory) (d : Nat) (payload : List Byte) : HandlerResult :=
  match prologue m d payload .a with
  | .error e => .raise m e
  | .ok x => ⟨m, countedData (packBits x.dev .co x.f0.toNat x.f1.toNat), .success⟩

/-- Read Discrete Inputs (R102). -/
def handlerRdi (m : Memory) (d : Nat) (payload : List Byte) : HandlerResult :=
  match prologue m d payload .a with
  | .error e => .raise m e
  | .ok x => ⟨m, countedData (packBits x.dev .di x.f0.toNat x.f1.toNat), .success⟩

/-- Read Holding Registers (R103). -/
def handlerRhr (m : Memory) (d : Nat) (payload : List Byte) : HandlerResult :=
  match prologue m d payload .a with
  | .error e => .raise m e
  | .ok x => ⟨m, countedData (packWords x.dev .hr x.f0.toNat x.f1.toNat), .success⟩

/-- Read Input Registers (R104). -/
def handlerRir (m : Memory) (d : Nat) (payload : List Byte) : HandlerResult :=
  match prologue m d payload .a with
  | .error e => .raise m e
  | .ok x => ⟨m, countedData (packWords x.dev .ir x.f0.toNat x.f1.toNat), .success⟩

/-- Write Single Coil (R111): any non-zero value stores 1 (R64). -/
def handlerWsc (m : Memory) (d : Nat) (payload : List Byte) : HandlerResult :=
  match prologue m d payload .b with
  | .error e => .raise m e
  | .ok x => ⟨m.putDevice d (x.dev.writeBit .co x.f0.toNat (x.f1 != 0#16)), echo payload, .success⟩

/-- Write Single Holding Register (R112). -/
def handlerWsr (m : Memory) (d : Nat) (payload : List Byte) : HandlerResult :=
  match prologue m d payload .b with
  | .error e => .raise m e
  | .ok x => ⟨m.putDevice d (x.dev.writeWord .hr x.f0.toNat x.f1), echo payload, .success⟩

/-- The data bytes of format C (R55). -/
def dataC (payload : List Byte) : List Byte := payload.drop 5

/-- Write Multiple Coils (R113): too few data bits is `IllegalDataAddress` before any write (D7). -/
def handlerWmc (m : Memory) (d : Nat) (payload : List Byte) : HandlerResult :=
  match prologue m d payload .c with
  | .error e => .raise m e
  | .ok x =>
    if 8 * (dataC payload).length < x.f1.toNat then .raise m .illegalDataAddress
    else
      ⟨m.putDevice d (writeBits x.dev .co x.f0.toNat x.f1.toNat (unpackBit (dataC payload))), echo payload, .success⟩

/-- Write Multiple Holding Registers (R114): the number of complete data words must be the quantity (D8). -/
def handlerWmr (m : Memory) (d : Nat) (payload : List Byte) : HandlerResult :=
  match prologue m d payload .c with
  | .error e => .raise m e
  | .ok x =>
    if (dataC payload).length / 2 ≠ x.f1.toNat then .raise m .illegalDataAddress
    else
      ⟨m.putDevice d (writeWords x.dev .hr x.f0.toNat x.f1.toNat fun i => readBE16 (dataC payload) (2 * i)),
        echo payload, .success⟩

/-- An extension handler (R137): the open family decides what is written and answered; only bank cells of existing devices
change. -/
def handlerExt (k : Nat) (m : Memory) (d : Nat) (payload : List Byte) : HandlerResult :=
  ⟨(Config.extHandler k m d payload).writes.foldl Memory.applyWrite m,
    (Config.extHandler k m d payload).payload, (Config.extHandler k m d payload).exc⟩

/-- `Handler(h)(store, d, payload)` (R126): an unbound slot yields `IllegalFunction` with no store access. -/
def runHandler (h : HandlerId) (m : Memory) (d : Nat) (payload : List Byte) : HandlerResult :=
  match h with
  | .unbound => .raise m .illegalFunction
  | .rc => handlerRc m d payload
  | .rdi => handlerRdi m d payload
  | .rhr => handlerRhr m d payload
  | .rir => handlerRir m d payload
  | .wsc => handlerWsc m d payload
  | .wsr => handlerWsr m d payload
  | .wmc => handlerWmc m d payload
  | .wmr => handlerWmr m d payload
  | .ext k => handlerExt k m d payload

/-- The default bindings of the dispatch table (R14, R60). -/
def defaultBinding (fc : Nat) : HandlerId :=
  if fc = 1 then .rc
  else if fc = 2 then .rdi
  else if fc = 3 then .rhr
  else if fc = 4 then .rir
  else if fc = 5 then .wsc
  else if fc = 6 then .wsr
  else if fc = 15 then .wmc
  else if fc = 16 then .wmr
  else .unbound

/-- `slot[]` after reset (R14, R26). -/
def defaultSlots : Vector HandlerId 256 := Vector.ofFn fun i => defaultBinding i.val

end Sys2Proof.Machine
end

