-- ==== Sys2Proof/Machine/State.lean ====
section
/-! DEFINITION. The state of the block (10_state.md R10 to R17), the reasons a step can stop, and the state after reset
(R26). -/

namespace Sys2Proof.Machine

/-- A lifecycle command in the queue (R16, R133). -/
inductive Lifecycle where
  | create (id : Byte)
  | remove (id : Byte)
deriving DecidableEq, Repr

/-- An item of the single queue (R16): a Request, that is a connection handle and a decoded Frame (R21), or a lifecycle
command from `MG`. -/
inductive Item where
  | req (p : Nat) (f : Frame)
  | mgmt (c : Lifecycle)
deriving DecidableEq, Repr

/-- `ser_state` and `cur` in one (R15): `cur` holds an item exactly while `ser_state = PROCESSING`. -/
inductive Serializer where
  | idle
  | processing (cur : Item)
deriving DecidableEq, Repr

/-- What the event output `EV` can carry (R24). -/
inductive Event where
  | shortFrame (p : Nat)
  | checksumMismatch (p : Nat)
  | unknownDevice (p : Nat) (id : Byte)
deriving DecidableEq, Repr

/-- A packet on a transmit port `TX[p]` (R22, R129). -/
structure TxPacket where
  port : Nat
  bytes : List Byte
deriving DecidableEq, Repr

/-- What a Checksum Unit or Frame Codec operation returned to its caller. -/
inductive OpResult where
  | checksum (w : Word)
  | decoded (d : Decoded)
  | packet (bytes : List Byte)
  | frame (f : Frame)
deriving DecidableEq, Repr

/-- A request to a checksum unit's streaming interface (R82 to R84), or for the checksum of a byte sequence (R80). DESIGN CHOICE
(log entry 22): the spec names no port that carries one; the model lets each arrive as a stimulus of its own. -/
inductive CrcRequest where
  | init
  | update (b : Byte)
  | read
  | whole (bytes : List Byte)
deriving DecidableEq, Repr

/-- What the environment, or the schedule, brings next: the inputs of R22 and R145, and two kinds that are DESIGN CHOICES of the
model, the turn of the Serializer (R155; log entry 2) and the operations of a checksum unit (R80, R82 to R84; log entry 22),
for which R22 and R145 name no input. -/
inductive Stimulus where
  | rx (p : Nat) (bytes : List Byte)                              -- a packet arrives on RX[p]
  | mg (op : BitVec 2) (id fc : Byte) (h : HandlerId)             -- a command arrives on MG
  | serializer                                                    -- the Serializer takes its next step (log entry 2)
  | crc (k : Codec) (r : CrcRequest)                              -- an operation of a checksum unit (log entry 22)
  | rst                                                           -- reset is asserted
deriving DecidableEq, Repr

/-- The state. The first six fields are the spec's (R10); the last five are the model's own: what the block has presented on
its output ports, the value the last checksum or codec operation returned, and the schedule (log entries 7 to 9). -/
structure State where
  /-- The Register Store: `dev_valid` and the four banks of every existing device (R11 to R13). -/
  mem : Memory
  /-- The dispatch table `slot[fc]` (R14). -/
  slot : Vector HandlerId 256
  /-- `ser_state` and `cur` (R15). -/
  ser : Serializer
  /-- `pending`, oldest first (R16). -/
  pending : List Item
  /-- `crc_acc[k]` of the ports' codec units (R17): port and value, ports rising, every unlisted one `0xFFFF`. -/
  crcPort : List (Nat × Word)
  /-- `crc_acc[k]` of the Serializer's codec unit (R17). -/
  crcSer : Word
  /-- MODEL'S OWN: the value the last checksum or codec operation returned. -/
  result : Option OpResult
  /-- MODEL'S OWN: the packets presented on `TX`, oldest first. -/
  tx : List TxPacket
  /-- MODEL'S OWN: the statuses returned on `MG`, oldest first. -/
  mg : List MgStatus
  /-- MODEL'S OWN: the events on `EV`, oldest first. -/
  ev : List Event
  /-- MODEL'S OWN: what comes next, in the order in which the block meets it. -/
  stimuli : List Stimulus
deriving DecidableEq, Repr

/-- `ser_state` as R15 names its two values. -/
inductive SerState where
  | idle
  | processing
deriving DecidableEq, Repr

/-- `ser_state` (R15). -/
def State.serState (s : State) : SerState :=
  match s.ser with
  | .idle => .idle
  | .processing _ => .processing

/-- `cur` (R15). -/
def State.cur (s : State) : Option Item :=
  match s.ser with
  | .idle => none
  | .processing it => some it

/-- The block has no fatal failure: "No failure stops the block, locks it up, or needs a reset" (R140). Nothing raises a
fault, so the type has no constructor. -/
inductive Fault where
deriving DecidableEq, Repr

/-- Why an instruction is given no meaning. -/
inductive Refusal where
  /-- Raised by an arm of `exec` whose instruction has no meaning yet. Safe. -/
  | notModelled (mnemonic : String)
  /-- Raised by `RegisterHandler` while the block is not quiescent: "A model must not give a meaning to a RegisterHandler
  issued at any other time" (R165, R45, U3). Safe. -/
  | registerHandlerNotQuiescent
  /-- Raised by `mg_op = 3`: "reserved ... a model refuses it" (R66, U13). Safe. -/
  | reservedManagementOperation
  /-- Raised by `SetException(f, Success)`: "never called", treatment "refuse" (R95, U11). Safe. -/
  | setExceptionWithSuccess
deriving DecidableEq, Repr

/-- The state after reset (R26, R160): device 1 exists with all four banks zero, the default bindings, `IDLE`, nothing
pending, every CRC accumulator `0xFFFF`; nothing has been presented on an output port and no stimulus is waiting. -/
def State.reset : State where
  mem := Memory.reset
  slot := defaultSlots
  ser := .idle
  pending := []
  crcPort := []
  crcSer := Config.crcInit
  result := none
  tx := []
  mg := []
  ev := []
  stimuli := []

end Sys2Proof.Machine
end

