-- ==== Sys2Proof/Machine/Ops.lean ====
section
/-! DEFINITION. The named operations over the state: one accessor for each register, the output ports, taking an exception
and returning from one (60_exceptions.md R148, R149), the arbiter (44_serializer_and_management.md R120 to R123), the
processing of an item (R124 to R129) and the device lifecycle (R130 to R133). -/

namespace Sys2Proof.Machine

/-! ### Registers and output ports -/

/-- Replace the Register Store. -/
def State.setMem (s : State) (m : Memory) : State := { s with mem := m }

/-- `slot[fc]` (R14). -/
def State.slotAt (s : State) (fc : Byte) : HandlerId := s.slot[fc.toNat]'fc.isLt

/-- `slot[fc] <- h` (R132). -/
def State.setSlot (s : State) (fc : Byte) (h : HandlerId) : State :=
  { s with slot := s.slot.set fc.toNat h fc.isLt }

/-- Replace `ser_state` and `cur`. -/
def State.setSer (s : State) (x : Serializer) : State := { s with ser := x }

/-- Replace `pending`. -/
def State.setPending (s : State) (l : List Item) : State := { s with pending := l }

/-- `crc_acc[k]` (R17). -/
def State.crcAcc (s : State) (k : Codec) : Word :=
  match k with
  | .port p => Cells.read Config.crcInit s.crcPort p
  | .serializer => s.crcSer

/-- `crc_acc[k] <- w` (R17). -/
def State.setCrcAcc (s : State) (k : Codec) (w : Word) : State :=
  match k with
  | .port p => { s with crcPort := Cells.write Config.crcInit s.crcPort p w }
  | .serializer => { s with crcSer := w }

/-- Hand a value back to the caller of a checksum or codec operation. -/
def State.returnValue (s : State) (r : OpResult) : State := { s with result := some r }

/-- Present a packet on `TX[p]` (R22, R129). -/
def State.present (s : State) (p : Nat) (bytes : List Byte) : State :=
  { s with tx := s.tx ++ [{ port := p, bytes := bytes }] }

/-- Return a status on `MG` (R66, R133). -/
def State.returnStatus (s : State) (st : MgStatus) : State := { s with mg := s.mg ++ [st] }

/-- `emit ev(...)` (R7, R24). -/
def State.emit (s : State) (e : Event) : State := { s with ev := s.ev ++ [e] }

/-- Replace what comes next. -/
def State.setStimuli (s : State) (l : List Stimulus) : State := { s with stimuli := l }

/-- Go on with a second operation if the first gave a next state. -/
def andThen (o : Host.Outcome State Fault Refusal) (k : State → Host.Outcome State Fault Refusal) :
    Host.Outcome State Fault Refusal :=
  match o with
  | .next s => k s
  | .fault r => .fault r
  | .refused r => .refused r

/-! ### The codec's operations on the state -/

/-- Decode on port `p` (R91, R143): the port's accumulator holds the checksum that was computed, if one was (log entry 10);
a framing failure is an event. -/
def decodeOn (p : Nat) (bytes : List Byte) (s : State) : State :=
  match decodePacket bytes with
  | .shortFrame => (s.returnValue (.decoded .shortFrame)).emit (.shortFrame p)
  | .checksumMismatch =>
    ((s.setCrcAcc (.port p) (crc16 (packetBody bytes))).returnValue (.decoded .checksumMismatch)).emit
      (.checksumMismatch p)
  | .frame f => (s.setCrcAcc (.port p) (crc16 (packetBody bytes))).returnValue (.decoded (.frame f))

/-- The accumulator of the Serializer's codec unit after Encode (R93; log entry 10). -/
def stampOn (f : Frame) (s : State) : State := s.setCrcAcc .serializer (crc16 (frameBody f))

/-- `Respond(p, r)` (R129): encode and present; the handoff never waits and its result is not examined. -/
def respondOn (p : Nat) (r : Frame) (s : State) : State := (stampOn r s).present p (encodeFrame r)

/-! ### Taking an exception and returning from one -/

/-- TAKING A PROTOCOL EXCEPTION (R148): the response, already a copy of the request, becomes the exception response, and is
encoded and sent on the requester's port. Nothing is saved, no mode changes, no vector is fetched. -/
def takeException (p : Nat) (r : Frame) (e : Exception) (s : State) : State :=
  respondOn p (setException r e) s

/-- RETURN (R123, R149): `cur <- none; ser_state <- IDLE`. "all failure paths return to the idle/accepting state". -/
def returnToIdle (s : State) : State := s.setSer .idle

/-! ### The arbiter -/

/-- Port `p` is blocked: its previous Submit has not been accepted yet (R16, R121). -/
def State.portBlocked (s : State) (p : Nat) : Bool :=
  s.pending.any fun it => match it with
    | .req q _ => q == p
    | .mgmt _ => false

/-- A lifecycle command. -/
def Item.isMgmt : Item → Bool
  | .req _ _ => false
  | .mgmt _ => true

/-- The `MG` port is blocked: its lifecycle command has not completed yet (R133). -/
def State.mgBlocked (s : State) : Bool :=
  s.pending.any Item.isMgmt || (match s.ser with
    | .idle => false
    | .processing it => it.isMgmt)

/-- The block is quiescent (R165): `ser_state = IDLE` and `pending` empty. -/
def State.quiescent (s : State) : Bool :=
  decide (s.ser = .idle) && s.pending.isEmpty

/-- An item joins `pending` at the tail (R121, R133). -/
def enqueue (it : Item) (s : State) : State := s.setPending (s.pending ++ [it])

/-- `Submit(p, frame)` (R121). A port that is blocked in Submit cannot submit: it waits (log entry 5). -/
def submitOn (p : Nat) (f : Frame) (s : State) : State :=
  if s.portBlocked p then s else enqueue (.req p f) s

/-- Accept (R122), `IDLE -> PROCESSING`: the head of `pending` becomes `cur`. Not enabled, it waits (log entry 5). -/
def acceptNext (s : State) : State :=
  match s.ser, s.pending with
  | .idle, it :: rest => (s.setPending rest).setSer (.processing it)
  | .idle, [] => s
  | .processing _, _ => s

/-! ### Processing an item -/

/-- `Dispatch(fc, d, payload)` (R126). -/
def State.dispatch (s : State) (fc : Byte) (d : Nat) (payload : List Byte) : HandlerResult :=
  runHandler (s.slotAt fc) s.mem d payload

/-- `Broadcast(f)` (R125): every device registered at the start, in ascending order; payloads and exceptions are
discarded. -/
def broadcastOn (f : Frame) (s : State) : State :=
  s.setMem (s.mem.registered.foldl (fun m d => ((s.setMem m).dispatch f.functionCode d f.payload).mem) s.mem)

/-- `DropUnknown(p, f)` (R127): an event, nothing else. -/
def dropUnknownOn (p : Nat) (f : Frame) (s : State) : State := s.emit (.unknownDevice p f.deviceId)

/-- `Unicast(p, f)` (R128): copy, dispatch, then the response or the exception response. -/
def unicastOn (p : Nat) (f : Frame) (s : State) : State :=
  let res := s.dispatch f.functionCode f.deviceId.toNat f.payload
  let r := { copyFrame f with payload := res.payload }
  if res.exc = .success then respondOn p r (s.setMem res.mem) else takeException p r res.exc (s.setMem res.mem)

/-- `Process(Req(p, f))` (R124): broadcast, then unknown device, then unicast. -/
def processRequest (p : Nat) (f : Frame) (s : State) : State :=
  if f.deviceId = Config.devBroadcast then broadcastOn f s
  else if s.mem.devValid f.deviceId.toNat then unicastOn p f s
  else dropUnknownOn p f s

/-- The Frame of a request that decoded: its trailer is its CRC (R20). -/
def requestFrame (dev fc : Byte) (payload : List Byte) : Frame :=
  { deviceId := dev, functionCode := fc, payload := payload, trailer := crc16 (dev :: fc :: payload) }

/-! ### Device lifecycle -/

/-- The id is in `[1,247]` (R130, R131, R144). -/
def idInRange (id : Byte) : Bool :=
  decide (Config.devMin ≤ id.toNat) && decide (id.toNat ≤ Config.devMax)

/-- `CreateDevice(id)` (R130), with its status on `MG`. -/
def createDeviceOn (id : Byte) (s : State) : State :=
  if idInRange id = false then s.returnStatus .outOfRange
  else if s.mem.devValid id.toNat then s.returnStatus .alreadyExists
  else (s.setMem (s.mem.putDevice id.toNat Device.zero)).returnStatus .ok

/-- `RemoveDevice(id)` (R131), with its status on `MG`. -/
def removeDeviceOn (id : Byte) (s : State) : State :=
  if idInRange id = false then s.returnStatus .outOfRange
  else if s.mem.devValid id.toNat then (s.setMem (s.mem.dropDevice id.toNat)).returnStatus .ok
  else s.returnStatus .notFound

/-- `Process(item)` (R124). -/
def processItem (it : Item) (s : State) : State :=
  match it with
  | .req p f => processRequest p f s
  | .mgmt (.create id) => createDeviceOn id s
  | .mgmt (.remove id) => removeDeviceOn id s

/-- Complete (R123), `PROCESSING -> IDLE`: process `cur`, then return. Not enabled, it waits (log entry 5). -/
def completeCurrent (s : State) : State :=
  match s.ser with
  | .processing it => returnToIdle (processItem it s)
  | .idle => s

/-- Reset (R160, R161): every piece of state at its reset value; what has been presented on an output port belongs to the
environment, and what it brings next is not the block's. -/
def resetBlock (s : State) : State :=
  { State.reset with tx := s.tx, mg := s.mg, ev := s.ev, stimuli := s.stimuli }

end Sys2Proof.Machine
end

