-- ==== Sys2Proof/Machine/ChecksumUnit.lean ====
section
/-! DEFINITION. The Checksum Unit's operations (40_crc.md R80, R82 to R84). -/

namespace Sys2Proof.Machine

/-- `CRC16(s)` (R80): "Deterministic, no side effects". -/
def execCrc16 (bytes : List Byte) (s : State) : Host.Outcome State Fault Refusal :=
  .next (s.returnValue (.checksum (crc16 bytes)))

/-- `CRC_INIT(k)` (R82). -/
def execCrcInit (k : Codec) (s : State) : Host.Outcome State Fault Refusal :=
  .next (s.setCrcAcc k Config.crcInit)

/-- `CRC_UPDATE(k, b)` (R83). -/
def execCrcUpdate (k : Codec) (b : Byte) (s : State) : Host.Outcome State Fault Refusal :=
  .next (s.setCrcAcc k (crcStep (s.crcAcc k) b))

/-- `CRC_READ(k)` (R84): the accumulator is "unchanged by the read". -/
def execCrcRead (k : Codec) (s : State) : Host.Outcome State Fault Refusal :=
  .next (s.returnValue (.checksum (s.crcAcc k)))

end Sys2Proof.Machine
end

