-- ==== Sys2Proof/Machine/CodecUnit.lean ====
section
/-! DEFINITION. The Frame Codec's operations (41_codec.md R91, R93 to R95). -/

namespace Sys2Proof.Machine

/-- `Decode(s)` on port `p` (R91, R143). -/
def execDecode (p : Nat) (bytes : List Byte) (s : State) : Host.Outcome State Fault Refusal :=
  .next (decodeOn p bytes s)

/-- `Encode(f)` (R93), by the Serializer's codec unit. -/
def execEncode (f : Frame) (s : State) : Host.Outcome State Fault Refusal :=
  .next ((stampOn f s).returnValue (.packet (encodeFrame f)))

/-- `Copy(f)` (R94). -/
def execCopy (f : Frame) (s : State) : Host.Outcome State Fault Refusal :=
  .next (s.returnValue (.frame (copyFrame f)))

/-- `SetException(f, e)` (R95); `SetException(f, Success)` is refused (U11). -/
def execSetexc (f : Frame) (e : Exception) (s : State) : Host.Outcome State Fault Refusal :=
  if e = .success then .refused .setExceptionWithSuccess
  else .next (s.returnValue (.frame (setException f e)))

end Sys2Proof.Machine
end

