-- ==== Sys2Proof/Machine/Management.lean ====
section
/-! DEFINITION. The management commands (30_encoding.md R66; 44_serializer_and_management.md R130 to R133). Executing
CreateDevice or RemoveDevice is what the Serializer does with the queued command in its turn (R133); RegisterHandler does not
pass through `pending` (R132). -/

namespace Sys2Proof.Machine

/-- `CreateDevice(id)` (R130). -/
def execCreatedev (id : Byte) (s : State) : Host.Outcome State Fault Refusal :=
  .next (createDeviceOn id s)

/-- `RemoveDevice(id)` (R131). -/
def execRemovedev (id : Byte) (s : State) : Host.Outcome State Fault Refusal :=
  .next (removeDeviceOn id s)

/-- `RegisterHandler(fc, h)` (R132), only while the block is quiescent (R45, R165). -/
def execReghandler (fc : Byte) (h : HandlerId) (s : State) : Host.Outcome State Fault Refusal :=
  if s.quiescent then .next ((s.setSlot fc h).returnStatus .ok) else .refused .registerHandlerNotQuiescent

/-- `mg_op = 3` (R66, U13): reserved, "a model refuses it". -/
def execMgReserved (_s : State) : Host.Outcome State Fault Refusal :=
  .refused .reservedManagementOperation

end Sys2Proof.Machine
end

