-- ==== Sys2Proof/Machine/RequestSerializer.lean ====
section
/-! DEFINITION. The Request Serializer's operations (44_serializer_and_management.md R121 to R123, R125, R127 to R129). -/

namespace Sys2Proof.Machine

/-- `Submit(p, frame)` (R121). -/
def execSubmit (p : Nat) (f : Frame) (s : State) : Host.Outcome State Fault Refusal :=
  .next (submitOn p f s)

/-- Accept (R122). -/
def execAccept (s : State) : Host.Outcome State Fault Refusal :=
  .next (acceptNext s)

/-- Complete (R123). -/
def execComplete (s : State) : Host.Outcome State Fault Refusal :=
  .next (completeCurrent s)

/-- `Broadcast(f)` (R125). -/
def execBroadcast (f : Frame) (s : State) : Host.Outcome State Fault Refusal :=
  .next (broadcastOn f s)

/-- `DropUnknown(p, f)` (R127). -/
def execDropunknown (p : Nat) (f : Frame) (s : State) : Host.Outcome State Fault Refusal :=
  .next (dropUnknownOn p f s)

/-- `Unicast(p, f)` (R128). -/
def execUnicast (p : Nat) (f : Frame) (s : State) : Host.Outcome State Fault Refusal :=
  .next (unicastOn p f s)

/-- `Respond(p, r)` (R129). -/
def execRespond (p : Nat) (r : Frame) (s : State) : Host.Outcome State Fault Refusal :=
  .next (respondOn p r s)

end Sys2Proof.Machine
end

