-- ==== Sys2Proof/Machine/Requests.lean ====
section
/-! DEFINITION. The requests: the twenty function-code rows of the opcode table (30_encoding.md R60, R61). Executing a request
is what the Serializer does with it in its turn, `Process(Req(p, frame))` (44_serializer_and_management.md R124): the
function code selects `slot[fc]`, which after reset holds the handler of the row's rule (log entry 1). -/

namespace Sys2Proof.Machine

/-- A request executes (R124): its Frame is processed. -/
def runRequest (p : Nat) (dev fc : Byte) (payload : List Byte) (s : State) : Host.Outcome State Fault Refusal :=
  .next (processRequest p (requestFrame dev fc payload) s)

/-- Read Coils, function code 1 (R101). -/
def execRc (p : Nat) (dev : Byte) (payload : List Byte) (s : State) : Host.Outcome State Fault Refusal :=
  runRequest p dev 0x01#8 payload s

/-- Read Discrete Inputs, function code 2 (R102). -/
def execRdi (p : Nat) (dev : Byte) (payload : List Byte) (s : State) : Host.Outcome State Fault Refusal :=
  runRequest p dev 0x02#8 payload s

/-- Read Holding Registers, function code 3 (R103). -/
def execRhr (p : Nat) (dev : Byte) (payload : List Byte) (s : State) : Host.Outcome State Fault Refusal :=
  runRequest p dev 0x03#8 payload s

/-- Read Input Registers, function code 4 (R104). -/
def execRir (p : Nat) (dev : Byte) (payload : List Byte) (s : State) : Host.Outcome State Fault Refusal :=
  runRequest p dev 0x04#8 payload s

/-- Write Single Coil, function code 5 (R111). -/
def execWsc (p : Nat) (dev : Byte) (payload : List Byte) (s : State) : Host.Outcome State Fault Refusal :=
  runRequest p dev 0x05#8 payload s

/-- Write Single Holding Register, function code 6 (R112). -/
def execWsr (p : Nat) (dev : Byte) (payload : List Byte) (s : State) : Host.Outcome State Fault Refusal :=
  runRequest p dev 0x06#8 payload s

/-- Write Multiple Coils, function code 15 (R113). -/
def execWmc (p : Nat) (dev : Byte) (payload : List Byte) (s : State) : Host.Outcome State Fault Refusal :=
  runRequest p dev 0x0F#8 payload s

/-- Write Multiple Holding Registers, function code 16 (R114). -/
def execWmr (p : Nat) (dev : Byte) (payload : List Byte) (s : State) : Host.Outcome State Fault Refusal :=
  runRequest p dev 0x10#8 payload s

/-- Function code 0: unbound after reset, `IllegalFunction` (R61, R126). -/
def execUnbound00 (p : Nat) (dev : Byte) (payload : List Byte) (s : State) : Host.Outcome State Fault Refusal :=
  runRequest p dev 0x00#8 payload s

/-- Function code 7: unbound after reset, `IllegalFunction` (R61, R126). -/
def execUnbound07 (p : Nat) (dev : Byte) (payload : List Byte) (s : State) : Host.Outcome State Fault Refusal :=
  runRequest p dev 0x07#8 payload s

/-- Function codes 8 to 11: unbound after reset, `IllegalFunction` (R61, R126). -/
def execUnbound08 (p : Nat) (dev : Byte) (low : BitVec 2) (payload : List Byte) (s : State) :
    Host.Outcome State Fault Refusal :=
  runRequest p dev (0x08#8 ||| low.setWidth 8) payload s

/-- Function codes 12, 13: unbound after reset, `IllegalFunction` (R61, R126). -/
def execUnbound0C (p : Nat) (dev : Byte) (low : BitVec 1) (payload : List Byte) (s : State) :
    Host.Outcome State Fault Refusal :=
  runRequest p dev (0x0C#8 ||| low.setWidth 8) payload s

/-- Function code 14: unbound after reset, `IllegalFunction` (R61, R126). -/
def execUnbound0E (p : Nat) (dev : Byte) (payload : List Byte) (s : State) : Host.Outcome State Fault Refusal :=
  runRequest p dev 0x0E#8 payload s

/-- Function code 17: unbound after reset, `IllegalFunction` (R61, R126). -/
def execUnbound11 (p : Nat) (dev : Byte) (payload : List Byte) (s : State) : Host.Outcome State Fault Refusal :=
  runRequest p dev 0x11#8 payload s

/-- Function codes 18, 19: unbound after reset, `IllegalFunction` (R61, R126). -/
def execUnbound12 (p : Nat) (dev : Byte) (low : BitVec 1) (payload : List Byte) (s : State) :
    Host.Outcome State Fault Refusal :=
  runRequest p dev (0x12#8 ||| low.setWidth 8) payload s

/-- Function codes 20 to 23: unbound after reset, `IllegalFunction` (R61, R126). -/
def execUnbound14 (p : Nat) (dev : Byte) (low : BitVec 2) (payload : List Byte) (s : State) :
    Host.Outcome State Fault Refusal :=
  runRequest p dev (0x14#8 ||| low.setWidth 8) payload s

/-- Function codes 24 to 31: unbound after reset, `IllegalFunction` (R61, R126). -/
def execUnbound18 (p : Nat) (dev : Byte) (low : BitVec 3) (payload : List Byte) (s : State) :
    Host.Outcome State Fault Refusal :=
  runRequest p dev (0x18#8 ||| low.setWidth 8) payload s

/-- Function codes 32 to 63: unbound after reset, `IllegalFunction` (R61, R126). -/
def execUnbound20 (p : Nat) (dev : Byte) (low : BitVec 5) (payload : List Byte) (s : State) :
    Host.Outcome State Fault Refusal :=
  runRequest p dev (0x20#8 ||| low.setWidth 8) payload s

/-- Function codes 64 to 127: unbound after reset, `IllegalFunction` (R61, R126). -/
def execUnbound40 (p : Nat) (dev : Byte) (low : BitVec 6) (payload : List Byte) (s : State) :
    Host.Outcome State Fault Refusal :=
  runRequest p dev (0x40#8 ||| low.setWidth 8) payload s

/-- Function codes 128 to 255: unbound after reset, `IllegalFunction` (R61, R126). -/
def execUnbound80 (p : Nat) (dev : Byte) (low : BitVec 7) (payload : List Byte) (s : State) :
    Host.Outcome State Fault Refusal :=
  runRequest p dev (0x80#8 ||| low.setWidth 8) payload s

end Sys2Proof.Machine
end

