-- ==== Sys2Proof/Machine/Dispatch.lean ====
section
/-! DEFINITION. One arm for each instruction. -/

namespace Sys2Proof.Machine

def exec (i : Instr) (s : State) : Host.Outcome State Fault Refusal :=
  match i with
  | .rc p dev payload => Sys2Proof.Machine.execRc p dev payload s
  | .rdi p dev payload => Sys2Proof.Machine.execRdi p dev payload s
  | .rhr p dev payload => Sys2Proof.Machine.execRhr p dev payload s
  | .rir p dev payload => Sys2Proof.Machine.execRir p dev payload s
  | .wsc p dev payload => Sys2Proof.Machine.execWsc p dev payload s
  | .wsr p dev payload => Sys2Proof.Machine.execWsr p dev payload s
  | .wmc p dev payload => Sys2Proof.Machine.execWmc p dev payload s
  | .wmr p dev payload => Sys2Proof.Machine.execWmr p dev payload s
  | .unbound00 p dev payload => Sys2Proof.Machine.execUnbound00 p dev payload s
  | .unbound07 p dev payload => Sys2Proof.Machine.execUnbound07 p dev payload s
  | .unbound08 p dev low payload => Sys2Proof.Machine.execUnbound08 p dev low payload s
  | .unbound0C p dev low payload => Sys2Proof.Machine.execUnbound0C p dev low payload s
  | .unbound0E p dev payload => Sys2Proof.Machine.execUnbound0E p dev payload s
  | .unbound11 p dev payload => Sys2Proof.Machine.execUnbound11 p dev payload s
  | .unbound12 p dev low payload => Sys2Proof.Machine.execUnbound12 p dev low payload s
  | .unbound14 p dev low payload => Sys2Proof.Machine.execUnbound14 p dev low payload s
  | .unbound18 p dev low payload => Sys2Proof.Machine.execUnbound18 p dev low payload s
  | .unbound20 p dev low payload => Sys2Proof.Machine.execUnbound20 p dev low payload s
  | .unbound40 p dev low payload => Sys2Proof.Machine.execUnbound40 p dev low payload s
  | .unbound80 p dev low payload => Sys2Proof.Machine.execUnbound80 p dev low payload s
  | .createdev id => Sys2Proof.Machine.execCreatedev id s
  | .removedev id => Sys2Proof.Machine.execRemovedev id s
  | .reghandler fc h => Sys2Proof.Machine.execReghandler fc h s
  | .mgReserved => Sys2Proof.Machine.execMgReserved s
  | .crc16 bytes => Sys2Proof.Machine.execCrc16 bytes s
  | .crcInit k => Sys2Proof.Machine.execCrcInit k s
  | .crcUpdate k b => Sys2Proof.Machine.execCrcUpdate k b s
  | .crcRead k => Sys2Proof.Machine.execCrcRead k s
  | .decode p bytes => Sys2Proof.Machine.execDecode p bytes s
  | .encode f => Sys2Proof.Machine.execEncode f s
  | .copy f => Sys2Proof.Machine.execCopy f s
  | .setexc f e => Sys2Proof.Machine.execSetexc f e s
  | .submit p f => Sys2Proof.Machine.execSubmit p f s
  | .accept => Sys2Proof.Machine.execAccept s
  | .complete => Sys2Proof.Machine.execComplete s
  | .broadcast f => Sys2Proof.Machine.execBroadcast f s
  | .dropunknown p f => Sys2Proof.Machine.execDropunknown p f s
  | .unicast p f => Sys2Proof.Machine.execUnicast p f s
  | .respond p r => Sys2Proof.Machine.execRespond p r s

end Sys2Proof.Machine
end

