-- ==== Sys2Proof/Machine/Schedule.lean ====
section
/-! DEFINITION. Which agent moves next and which instruction that move is (10_state.md R18, R22; 60_exceptions.md R145, R155).
`Step.lean` only calls what stands here. -/

namespace Sys2Proof.Machine

/-- The instruction that processing an item is: "the 'next instruction' is the head of `pending`" (R18). -/
def instrOfItem : Item → Instr
  | .req p f => instrOfFrame p f
  | .mgmt (.create id) => .createdev id
  | .mgmt (.remove id) => .removedev id

/-- The Serializer's move: Complete while an item is in flight, which executes the item's instruction and returns (R123),
else Accept (R122). -/
def serve (s : State) : Host.Outcome State Fault Refusal :=
  match s.ser with
  | .processing it => andThen (exec (instrOfItem it) s) fun t => .next (returnToIdle t)
  | .idle => exec .accept s

/-- A packet arrives on `RX[p]` (R22): Decode, then Submit of the Frame; a framing failure submits nothing (R143). That these are
one step is log entry 19. -/
def receive (p : Nat) (bytes : List Byte) (s : State) : Host.Outcome State Fault Refusal :=
  andThen (exec (.decode p bytes) s) fun t =>
    match decodePacket bytes with
    | .frame f => exec (.submit p f) t
    | .shortFrame => .next t
    | .checksumMismatch => .next t

/-- A command arrives on `MG`: a lifecycle command joins `pending` (R133), RegisterHandler takes effect at once (R132). -/
def command (op : BitVec 2) (id fc : Byte) (h : HandlerId) (s : State) : Host.Outcome State Fault Refusal :=
  if op = 0#2 then .next (enqueue (.mgmt (.create id)) s)
  else if op = 1#2 then .next (enqueue (.mgmt (.remove id)) s)
  else exec (instrOfCommand op id fc h) s

/-- The instruction of a request to a checksum unit (that one can come as a stimulus is log entry 22). -/
def instrOfCrc (k : Codec) : CrcRequest → Instr
  | .init => .crcInit k
  | .update b => .crcUpdate k b
  | .read => .crcRead k
  | .whole bytes => .crc16 bytes

/-- A port takes a new packet only after its previous Submit has been accepted (R22, R171), and `MG` a new command only after
its lifecycle command has completed (R133; log entry 18); nothing else waits. -/
def ready (x : Stimulus) (s : State) : Bool :=
  match x with
  | .rx p _ => !s.portBlocked p
  | .mg _ _ _ _ => !s.mgBlocked
  | .serializer => true
  | .crc _ _ => true
  | .rst => true

/-- The stimulus is met. -/
def perform (x : Stimulus) (s : State) : Host.Outcome State Fault Refusal :=
  match x with
  | .rx p bytes => receive p bytes s
  | .mg op id fc h => command op id fc h s
  | .serializer => serve s
  | .crc k r => exec (instrOfCrc k r) s
  | .rst => .next (resetBlock s)

/-- One move (log entries 2 and 4): the next stimulus if the block can take it, else the Serializer's move. -/
def move (s : State) : Host.Outcome State Fault Refusal :=
  match s.stimuli with
  | [] => serve s
  | x :: rest => if ready x s then perform x (s.setStimuli rest) else serve s

/-- The state in which the very next move executes what `e` selects: a request or a lifecycle command is the item in flight,
any other management command is the next stimulus of a quiescent block (log entry 12). A packet that does not decode is the
next stimulus. -/
def fetchNext (e : Encoded) (s : State) : State :=
  match e with
  | .packet p bytes =>
    match decodePacket bytes with
    | .frame f => (s.setSer (.processing (.req p f))).setStimuli []
    | .shortFrame => (s.setPending []).setStimuli [.rx p bytes]
    | .checksumMismatch => (s.setPending []).setStimuli [.rx p bytes]
  | .command op id fc h =>
    if op = 0#2 then (s.setSer (.processing (.mgmt (.create id)))).setStimuli []
    else if op = 1#2 then (s.setSer (.processing (.mgmt (.remove id)))).setStimuli []
    else ((s.setSer .idle).setPending []).setStimuli [.mg op id fc h]

end Sys2Proof.Machine
end

