-- ==== Sys2Proof/Machine/Step.lean ====
section
/-! DEFINITION. One step of the block, and how a row of the opcode table is put where the step finds its next
instruction. -/

namespace Sys2Proof.Machine

/-- One step: one move of one agent (`Machine/Schedule.lean`). -/
def step (s : State) : Host.Outcome State Fault Refusal := move s

/-- `s` with the instruction of an opcode-table row as the one that `step` executes next (log entry 12). -/
def State.withFetchWord (s : State) (nbits w : Nat) : State := fetchNext (tableStimulus nbits w) s

end Sys2Proof.Machine
end

