-- ==== Sys2Proof/Safety.lean ====
section
/-! DEFINITION. The terms in which claims speak: what stays the same, what a request is answered, the invariant, a run that
is over. -/

namespace Sys2Proof.Safety

open Machine

/-- Every cell of the store reads as before, and the same devices exist. -/
def StoreReadsSame (m m' : Memory) : Prop :=
  (∀ d, m'.devValid d = m.devValid d) ∧ (∀ d b a, m'.bit? d b a = m.bit? d b a) ∧
    ∀ d b a, m'.word? d b a = m.word? d b a

/-- The dispatch table, the arbiter's state and what comes next are as before. -/
def ControlSame (s t : State) : Prop :=
  t.slot = s.slot ∧ t.ser = s.ser ∧ t.pending = s.pending ∧ t.stimuli = s.stimuli

/-- Every CRC accumulator is as before. -/
def AccumulatorsSame (s t : State) : Prop := ∀ k, t.crcAcc k = s.crcAcc k

/-- Nothing was presented on an output port. -/
def OutputsSame (s t : State) : Prop := t.tx = s.tx ∧ t.mg = s.mg ∧ t.ev = s.ev

/-- Exactly one packet was presented on an output port: `[dev, fc] ‖ payload` with its CRC trailer, on `TX[p]`. Control, the
other outputs, the last returned value and the ports' CRC accumulators are as before. -/
def Answered (s t : State) (p : Nat) (dev fc : Byte) (payload : List Byte) : Prop :=
  t.tx = s.tx ++ [{ port := p, bytes := packetOf dev fc payload }] ∧ t.mg = s.mg ∧ t.ev = s.ev ∧
    t.result = s.result ∧ t.crcPort = s.crcPort ∧ ControlSame s t

/-- Nothing but the Register Store may differ. -/
def OnlyStoreMayDiffer (s t : State) : Prop :=
  ControlSame s t ∧ AccumulatorsSame s t ∧ OutputsSame s t ∧ t.result = s.result

/-- A handler of the default set, or no handler: not an extension handler (R137). -/
def DefaultHandler (h : HandlerId) : Prop := ∀ k, h ≠ .ext k

/-- The baseline of R137: no slot holds an extension handler. -/
def BaselineTable (s : State) : Prop := ∀ fc, DefaultHandler (s.slotAt fc)

/-- The unicast target of a request exists (R124, R126). -/
def Registered (s : State) (dev : Byte) : Prop := dev ≠ Config.devBroadcast ∧ s.mem.devValid dev.toNat = true

/-- The 1-bit cells that may differ are those of bank `b` of device `d` at the addresses of `run`; nothing else does. -/
def OnlyBitsWritten (m m' : Memory) (d : Nat) (b : BitBank) (run : Nat → Prop) : Prop :=
  (∀ e, m'.devValid e = m.devValid e) ∧ (∀ e c a, m'.word? e c a = m.word? e c a) ∧
    ∀ e c a, ¬ (e = d ∧ c = b ∧ run a) → m'.bit? e c a = m.bit? e c a

/-- The 16-bit cells that may differ are those of bank `b` of device `d` at the addresses of `run`; nothing else does. -/
def OnlyWordsWritten (m m' : Memory) (d : Nat) (b : WordBank) (run : Nat → Prop) : Prop :=
  (∀ e, m'.devValid e = m.devValid e) ∧ (∀ e c a, m'.bit? e c a = m.bit? e c a) ∧
    ∀ e c a, ¬ (e = d ∧ c = b ∧ run a) → m'.word? e c a = m.word? e c a

/-- The data bytes of a bit read (R105): `ceil(q/8)` bytes, bit `i` of the run the cell `a + i`, the bits above the run 0. -/
def PackedBits (m : Memory) (d : Nat) (b : BitBank) (a q : Nat) (data : List Byte) : Prop :=
  data.length = (q + 7) / 8 ∧
    ∀ i < 8 * data.length, some (unpackBit data i) = if i < q then m.bit? d b (a + i) else some false

/-- The data bytes of a word read (R106): two bytes a register, big-endian, in ascending address order. -/
def PackedWords (m : Memory) (d : Nat) (b : WordBank) (a q : Nat) (data : List Byte) : Prop :=
  data.length = 2 * q ∧ ∀ i < q, some (readBE16 data (2 * i)) = m.word? d b (a + i)

/-- The first field of a request payload: the start address, or the address (R53 to R55). -/
def field0 (payload : List Byte) : Nat := (readBE16 payload 0).toNat

/-- The second field of a request payload: the quantity, or the value (R53 to R55). -/
def field1 (payload : List Byte) : Nat := (readBE16 payload 2).toNat

/-- A check of the handler fails on a registered device (R142): the payload is too short, the range ends above 65536, or the
data does not hold what the quantity says. -/
def ChecksFail (h : HandlerId) (payload : List Byte) : Prop :=
  match h with
  | .unbound => False
  | .rc => payload.length < 4 ∨ 65536 < field0 payload + field1 payload
  | .rdi => payload.length < 4 ∨ 65536 < field0 payload + field1 payload
  | .rhr => payload.length < 4 ∨ 65536 < field0 payload + field1 payload
  | .rir => payload.length < 4 ∨ 65536 < field0 payload + field1 payload
  | .wsc => payload.length < 4
  | .wsr => payload.length < 4
  | .wmc =>
    payload.length < 5 ∨ 65536 < field0 payload + field1 payload ∨ 8 * (payload.length - 5) < field1 payload
  | .wmr =>
    payload.length < 5 ∨ 65536 < field0 payload + field1 payload ∨ (payload.length - 5) / 2 ≠ field1 payload
  | .ext _ => False

/-- A run is over (R135): nothing comes next and the block is quiescent. -/
def RunOver (s : State) : Prop := s.stimuli = [] ∧ s.quiescent = true

/-- Reset is what comes next (R160). -/
def MeetsReset (s : State) : Prop := ∃ rest, s.stimuli = .rst :: rest

/-- What comes next meets a blocked port and waits: a packet (R22), or a command of any kind on `MG` (R133; log entry 18). -/
def MeetsBlockedPort (s : State) (x : Stimulus) : Prop :=
  match x with
  | .rx p _ => s.portBlocked p = true
  | .mg _ _ _ _ => s.mgBlocked = true
  | .serializer => False
  | .crc _ _ => False
  | .rst => False

/-- The next step is the Serializer's (log entry 2): nothing comes next, the schedule names the Serializer, or what comes next
waits at a blocked port. -/
def SerializersTurn (s : State) : Prop :=
  s.stimuli = [] ∨ (∃ rest, s.stimuli = .serializer :: rest) ∨ ∃ x rest, s.stimuli = x :: rest ∧ MeetsBlockedPort s x

/-- The ports whose submission has not been accepted yet. -/
def waitingPorts (l : List Item) : List Nat :=
  l.filterMap fun it => match it with
    | .req p _ => some p
    | .mgmt _ => none

/-- The lifecycle commands that have not completed yet. -/
def openCommands (s : State) : Nat :=
  s.pending.countP Item.isMgmt + (match s.ser with
    | .idle => 0
    | .processing it => if it.isMgmt then 1 else 0)

/-- An item carries a Frame that Decode returned (R20, R121). -/
def ItemDecoded : Item → Prop
  | .req _ f => decodedFrame f
  | .mgmt _ => True

/-- The invariant of the block: the store is in its canonical form; each port has at most one item in `pending` and `MG` at
most one command outstanding (R16, R133); every queued Frame and the one in flight decoded (R121); the accumulators are in
their canonical form. -/
def Inv (s : State) : Prop :=
  s.mem.wf ∧ (waitingPorts s.pending).Nodup ∧ openCommands s ≤ 1 ∧
    (∀ it ∈ s.pending, ItemDecoded it) ∧ (∀ it, s.cur = some it → ItemDecoded it) ∧
    Assoc.rising s.crcPort ∧ ∀ e ∈ s.crcPort, e.2 ≠ Config.crcInit

/-- Flip bit `i` of a packet, counting from the least significant bit of its first byte. -/
def flipBit (s : List Byte) (i : Nat) : List Byte :=
  s.set (i / 8) (byteAt s (i / 8) ^^^ (1#8 <<< (i % 8)))

/-- Execute instructions one after another, stopping at the first that gives no next state. -/
def execAll : List Instr → State → Host.Outcome State Fault Refusal
  | [], s => .next s
  | i :: is, s => andThen (exec i s) (execAll is)

/-- A safe outcome: the block goes on. -/
def Goes (o : Host.Outcome State Fault Refusal) : Prop := ∃ t, o = .next t

end Sys2Proof.Safety
end

