-- ==== Sys2Proof/Certificates/Slice0/Obligations.lean ====
section
/-! DEFINITION. The statements for the provers. Each docstring says which rule of the spec it formalises; where a clause rests
on a decision of the spec (D<n>) or on the model's own choice (log entry <n>), it says so. -/

open Sys2Proof Sys2Proof.Machine Sys2Proof.Safety

/-! ### The Checksum Unit -/

/-- 40_crc.md section 1. The tested bit of the conditional XOR is the one shifted out (the spec marks this as general
knowledge, G1). -/
def Obligations.Crc16IsTheFoldOfEightShiftSteps : Prop :=
  crc16 [] = 0xFFFF#16 ∧ (∀ (x : List Byte) (b : Byte), crc16 (x ++ [b]) = crcStep (crc16 x) b) ∧
    (∀ (c : Word) (b : Byte),
      let sh : Word → Word := fun x => if x.getLsbD 0 then (x >>> 1) ^^^ 0xA001#16 else x >>> 1
      crcStep c b = sh (sh (sh (sh (sh (sh (sh (sh (c ^^^ b.setWidth 16))))))))) ∧
    ∀ (s : State) (bytes : List Byte),
      exec (.crc16 bytes) s = .next { s with result := some (.checksum (crc16 bytes)) }

/-- 40_crc.md section 2 (decision D20): each streaming operation completes and touches its own accumulator only. -/
def Obligations.StreamingOperationsTouchOnlyTheirAccumulator : Prop :=
  ∀ (s : State) (k : Codec) (b : Byte),
    (∃ t, exec (.crcInit k) s = .next t ∧ t.crcAcc k = 0xFFFF#16 ∧ (∀ j, j ≠ k → t.crcAcc j = s.crcAcc j) ∧
      t.mem = s.mem ∧ ControlSame s t ∧ OutputsSame s t ∧ t.result = s.result) ∧
    (∃ t, exec (.crcUpdate k b) s = .next t ∧ t.crcAcc k = crcStep (s.crcAcc k) b ∧
      (∀ j, j ≠ k → t.crcAcc j = s.crcAcc j) ∧ t.mem = s.mem ∧ ControlSame s t ∧ OutputsSame s t ∧
      t.result = s.result) ∧
    ∃ t, exec (.crcRead k) s = .next t ∧ t.result = some (.checksum (s.crcAcc k)) ∧ AccumulatorsSame s t ∧
      t.mem = s.mem ∧ ControlSame s t ∧ OutputsSame s t

/-- 40_crc.md section 2, the law of R84 (derived there): init, one update a byte, read, gives the pure function. -/
def Obligations.StreamingChecksumEqualsCrc16 : Prop :=
  ∀ (s : State) (k : Codec) (bytes : List Byte),
    ∃ t, execAll (.crcInit k :: (bytes.map (.crcUpdate k) ++ [.crcRead k])) s = .next t ∧
      t.result = some (.checksum (crc16 bytes)) ∧ t.crcAcc k = crc16 bytes ∧
      (∀ j, j ≠ k → t.crcAcc j = s.crcAcc j) ∧ t.mem = s.mem ∧ ControlSame s t ∧ OutputsSame s t

/-- 40_crc.md section 3, property 3 (derived there). -/
def Obligations.ResidueOfAStampedSequenceIsZero : Prop :=
  ∀ bytes : List Byte, crc16 (bytes ++ le16 (crc16 bytes)) = 0#16

/-- 40_crc.md section 3, property 4 (derived there): one flipped bit anywhere in a valid packet is noticed by Decode. -/
def Obligations.EverySingleBitErrorIsAChecksumMismatch : Prop :=
  ∀ (s : State) (p : Nat) (bytes : List Byte) (f : Frame) (i : Nat),
    decodePacket bytes = .frame f → i < 8 * bytes.length →
      ∃ t, exec (.decode p (flipBit bytes i)) s = .next t ∧ t.result = some (.decoded .checksumMismatch) ∧
        t.ev = s.ev ++ [.checksumMismatch p] ∧ t.pending = s.pending ∧ t.mem = s.mem ∧ t.tx = s.tx

/-! ### The Frame Codec -/

/-- R91: the length is tested before the checksum, and a packet that passes both is split into its four fields. No state is
written, the port's own accumulator aside. (The event of a failure is `AFramingFailureOnlyEmitsItsEvent`.) -/
def Obligations.DecodeTestsLengthThenChecksumThenSplits : Prop :=
  ∀ (s : State) (p : Nat) (bytes : List Byte),
    ∃ t, exec (.decode p bytes) s = .next t ∧
      (bytes.length < 5 → t.result = some (.decoded .shortFrame)) ∧
      (5 ≤ bytes.length → readLE16 bytes (bytes.length - 2) ≠ crc16 (bytes.take (bytes.length - 2)) →
        t.result = some (.decoded .checksumMismatch)) ∧
      (5 ≤ bytes.length → readLE16 bytes (bytes.length - 2) = crc16 (bytes.take (bytes.length - 2)) →
        t.result = some (.decoded (.frame
          { deviceId := bytes.getD 0 0#8, functionCode := bytes.getD 1 0#8,
            payload := (bytes.take (bytes.length - 2)).drop 2, trailer := readLE16 bytes (bytes.length - 2) })) ∧
        t.ev = s.ev) ∧
      (∀ k, k ≠ .port p → t.crcAcc k = s.crcAcc k) ∧ t.mem = s.mem ∧ ControlSame s t ∧ t.tx = s.tx ∧ t.mg = s.mg

/-- R93: the three fields, then the fresh CRC, low byte first; the frame's own trailer is not read. -/
def Obligations.EncodeAppendsTheFreshCrcLowByteFirst : Prop :=
  ∀ (s : State) (f : Frame),
    ∃ t bytes, exec (.encode f) s = .next t ∧ t.result = some (.packet bytes) ∧
      bytes = [f.deviceId, f.functionCode] ++ f.payload ++
        [(crc16 ([f.deviceId, f.functionCode] ++ f.payload)).extractLsb' 0 8,
          (crc16 ([f.deviceId, f.functionCode] ++ f.payload)).extractLsb' 8 8] ∧
      bytes.length = f.payload.length + 4 ∧ (∀ k, k ≠ .serializer → t.crcAcc k = s.crcAcc k) ∧ t.mem = s.mem ∧
      ControlSame s t ∧ OutputsSame s t

/-- R94: a frame with the same four fields, and nothing else changes. -/
def Obligations.CopyReturnsAFrameWithTheSameFields : Prop :=
  ∀ (s : State) (f : Frame),
    ∃ t g, exec (.copy f) s = .next t ∧ t.result = some (.frame g) ∧ g.deviceId = f.deviceId ∧
      g.functionCode = f.functionCode ∧ g.payload = f.payload ∧ g.trailer = f.trailer ∧ AccumulatorsSame s t ∧
      t.mem = s.mem ∧ ControlSame s t ∧ OutputsSame s t

/-- 41_codec.md section 3 (R95). That `SetException(f, Success)` is refused is the treatment of U11; the code numbers 1, 2 and 4
are decision D2. -/
def Obligations.SetExceptionSetsBitSevenAndTheOneCodeByte : Prop :=
  ∀ (s : State) (f : Frame) (e : Exception),
    (e ≠ .success →
      ∃ t code, exec (.setexc f e) s = .next t ∧
        t.result = some (.frame
          { deviceId := f.deviceId, functionCode := f.functionCode ||| 0x80#8, payload := [code], trailer := f.trailer }) ∧
        (e = .illegalFunction → code = 1#8) ∧ (e = .illegalDataAddress → code = 2#8) ∧
        (e = .slaveDeviceFailure → code = 4#8) ∧ AccumulatorsSame s t ∧ t.mem = s.mem ∧ ControlSame s t ∧
        OutputsSame s t) ∧
    (e = .success → exec (.setexc f e) s = .refused .setExceptionWithSuccess)

/-- 41_codec.md section 4, R96 (derived there): the two directions of the codec's round trip, and the empty payload, which does
not come back. -/
def Obligations.CodecRoundTripsEveryFrameWithAPayload : Prop :=
  (∀ f : Frame, f.payload ≠ [] →
    decodePacket (encodeFrame f) = .frame { f with trailer := crc16 (f.deviceId :: f.functionCode :: f.payload) }) ∧
  (∀ f : Frame, f.payload = [] → decodePacket (encodeFrame f) = .shortFrame) ∧
  ∀ (bytes : List Byte) (f : Frame), decodePacket bytes = .frame f → encodeFrame f = bytes

/-- 41_codec.md section 1, R92 (derived there): a packet that differs from a valid one in its trailer only is rejected. -/
def Obligations.EveryOtherTrailerIsAChecksumMismatch : Prop :=
  ∀ (body : List Byte) (x y : Word) (f : Frame),
    decodePacket (body ++ le16 x) = .frame f → y ≠ x → decodePacket (body ++ le16 y) = .checksumMismatch

/-! ### The decoder and the encoder of the model -/

/-- 30_encoding.md sections 5 and 8: no bit of an encoding is dropped. Exactly the rows with a bit pattern, the requests and the
management commands, have an encoding. -/
def Obligations.DecodeOfEncodeIsTheInstruction : Prop :=
  ∀ i : Instr, i.wellFormed = true →
    (∀ e, encode i = some e → decode e = .ok i) ∧
      ((encode i).isSome ↔ (i.request?.isSome ∨ i.command?.isSome))

/-- 30_encoding.md section 1: a packet that decodes is the encoding of the well-formed instruction it decodes to. -/
def Obligations.EncodeOfADecodedPacketIsThePacket : Prop :=
  ∀ (p : Nat) (bytes : List Byte) (i : Instr),
    decode (.packet p bytes) = .ok i → i.wellFormed = true ∧ encode i = some (.packet p bytes)

/-- 30_encoding.md section 5: the rows partition 0..255; the row that a code selects is, with its free bits, that code again. -/
def Obligations.EveryFunctionCodeSelectsItsRow : Prop :=
  ∀ (p : Nat) (dev fc : Byte) (payload : List Byte),
    (instrOfRequest p dev fc payload).request? = some ⟨p, dev, fc, payload⟩ ∧
      (∀ i : Instr, i.request? = some ⟨p, dev, fc, payload⟩ → instrOfRequest p dev fc payload = i)

/-- Packets of 95_test_vectors.md and management tuples of R66 decode to what they stand for. -/
def Obligations.SampleEncodingsDecode : Prop :=
  decode (.packet 0 [0x01, 0x03, 0x00, 0x00, 0x00, 0x0A, 0xC5, 0xCD]) = .ok (.rhr 0 1 [0x00, 0x00, 0x00, 0x0A]) ∧
    decode (.packet 0 [0x01, 0x0F, 0x00, 0x13, 0x00, 0x0A, 0x02, 0xCD, 0x01, 0x72, 0xCB]) =
      .ok (.wmc 0 1 [0x00, 0x13, 0x00, 0x0A, 0x02, 0xCD, 0x01]) ∧
    decode (.packet 0 [0x01, 0x83, 0x00, 0x41, 0x30]) = .ok (.unbound80 0 1 3 [0x00]) ∧
    decode (.packet 0 [0x01, 0x03, 0x40, 0x21]) = .error .shortFrame ∧
    decode (.packet 0 [0x01, 0x03, 0x00, 0x00, 0x00, 0x0A, 0xCD, 0xC5]) = .error .checksumMismatch ∧
    decode (.command 0 7 0 .unbound) = .ok (.createdev 7) ∧ decode (.command 3 0 0 .unbound) = .ok .mgReserved

/-! ### A step -/

/-- 10_state.md R18, 44_serializer_and_management.md R123: while a Request is in flight and it is the Serializer's turn (nothing
comes next, or the schedule names it: log entry 2, the model's choice), a step is the execution of the instruction that the
Request's packet decodes to, followed by the return to `IDLE`. -/
def Obligations.AStepRunsTheDecodedInstruction : Prop :=
  ∀ (s : State) (p : Nat) (bytes : List Byte) (f : Frame) (i : Instr) (rest : List Stimulus),
    (s.stimuli = [] ∧ rest = [] ∨ s.stimuli = .serializer :: rest) → decodePacket bytes = .frame f →
      s.ser = .processing (.req p f) → decode (.packet p bytes) = .ok i →
      step s = match exec i { s with stimuli := rest } with
        | .next t => .next { t with ser := .idle }
        | .fault r => .fault r
        | .refused r => .refused r

/-- 40_crc.md section 2, 44_serializer_and_management.md section 3: the other stimuli that are instructions are executed as they
stand: an operation of a checksum unit, and a management command of a free `MG` port that does not pass through the queue. That an
operation of a checksum unit can come as a stimulus is THE MODEL'S CHOICE (log entry 22): the spec names no port for it. -/
def Obligations.AStepRunsTheInstructionOfAStimulus : Prop :=
  ∀ (s : State) (rest : List Stimulus),
    (∀ k, s.stimuli = .crc k .init :: rest → step s = exec (.crcInit k) { s with stimuli := rest }) ∧
    (∀ k b, s.stimuli = .crc k (.update b) :: rest → step s = exec (.crcUpdate k b) { s with stimuli := rest }) ∧
    (∀ k, s.stimuli = .crc k .read :: rest → step s = exec (.crcRead k) { s with stimuli := rest }) ∧
    (∀ k bytes, s.stimuli = .crc k (.whole bytes) :: rest → step s = exec (.crc16 bytes) { s with stimuli := rest }) ∧
    (∀ id fc h, s.stimuli = .mg 2#2 id fc h :: rest → s.mgBlocked = false →
      step s = exec (.reghandler fc h) { s with stimuli := rest }) ∧
    ∀ id fc h, s.stimuli = .mg 3#2 id fc h :: rest → s.mgBlocked = false →
      step s = exec .mgReserved { s with stimuli := rest }

/-- 44_serializer_and_management.md R133, R123: the same of a lifecycle command in flight, at the Serializer's turn (nothing comes
next, or the schedule names it: log entry 2, the model's choice). -/
def Obligations.AStepRunsTheLifecycleCommandInFlight : Prop :=
  ∀ (s : State) (id : Byte) (rest : List Stimulus), (s.stimuli = [] ∧ rest = [] ∨ s.stimuli = .serializer :: rest) →
    (s.ser = .processing (.mgmt (.create id)) →
      ∃ t, exec (.createdev id) { s with stimuli := rest } = .next t ∧ step s = .next { t with ser := .idle }) ∧
    (s.ser = .processing (.mgmt (.remove id)) →
      ∃ t, exec (.removedev id) { s with stimuli := rest } = .next t ∧ step s = .next { t with ser := .idle })

/-- 10_state.md R22 (decision D1), R121: a packet on a port that is not blocked is decoded and, if it decodes, submitted. That
arrival, Decode and Submit are ONE step is THE MODEL'S CHOICE (log entry 19, DEDUCED): neither rule counts steps. -/
def Obligations.AnArrivingPacketIsDecodedAndSubmitted : Prop :=
  ∀ (s : State) (p : Nat) (bytes : List Byte) (f : Frame) (rest : List Stimulus),
    s.stimuli = .rx p bytes :: rest → s.portBlocked p = false → decodePacket bytes = .frame f →
      ∃ t, step s = .next t ∧ t.pending = s.pending ++ [.req p f] ∧ t.portBlocked p = true ∧ t.stimuli = rest ∧
        t.mem = s.mem ∧ t.slot = s.slot ∧ t.ser = s.ser ∧ (∀ k, k ≠ .port p → t.crcAcc k = s.crcAcc k) ∧ OutputsSame s t

/-- 60_exceptions.md R143 (the events are decision D13): a packet that does not decode is discarded: nothing is submitted, the event
is emitted, and the port takes its next packet at once. That arrival and Decode are ONE step is THE MODEL'S CHOICE (log entry 19,
DEDUCED): the rule counts no steps. Its "no state of the block changes" is said with the port's own CRC accumulator set aside, as
41_codec.md R91 sets it aside ("none (the accumulator aside)") and R17 makes it invisible; what Decode leaves in it is log entry
10 (DEDUCED), and nothing is claimed of it here. -/
def Obligations.AFramingFailureOnlyEmitsItsEvent : Prop :=
  ∀ (s : State) (p : Nat) (bytes : List Byte) (rest : List Stimulus),
    s.stimuli = .rx p bytes :: rest → s.portBlocked p = false →
      (decodePacket bytes = .shortFrame ∨ decodePacket bytes = .checksumMismatch) →
      ∃ t, step s = .next t ∧
        (bytes.length < 5 → t.ev = s.ev ++ [.shortFrame p]) ∧
        (5 ≤ bytes.length → t.ev = s.ev ++ [.checksumMismatch p]) ∧
        t.pending = s.pending ∧ t.portBlocked p = false ∧ t.stimuli = rest ∧ t.mem = s.mem ∧ t.slot = s.slot ∧
        t.ser = s.ser ∧ (∀ k, k ≠ .port p → t.crcAcc k = s.crcAcc k) ∧ t.tx = s.tx ∧ t.mg = s.mg

/-- 44_serializer_and_management.md section 3 (decision D21): a lifecycle command on a free `MG` port joins the queue. -/
def Obligations.ALifecycleCommandJoinsTheQueue : Prop :=
  ∀ (s : State) (id fc : Byte) (h : HandlerId) (rest : List Stimulus), s.mgBlocked = false →
    (s.stimuli = .mg 0#2 id fc h :: rest →
      ∃ t, step s = .next t ∧ t.pending = s.pending ++ [.mgmt (.create id)] ∧ t.mgBlocked = true ∧ t.stimuli = rest ∧
        t.mem = s.mem ∧ t.slot = s.slot ∧ t.ser = s.ser ∧ AccumulatorsSame s t ∧ OutputsSame s t) ∧
    (s.stimuli = .mg 1#2 id fc h :: rest →
      ∃ t, step s = .next t ∧ t.pending = s.pending ++ [.mgmt (.remove id)] ∧ t.mgBlocked = true ∧ t.stimuli = rest ∧
        t.mem = s.mem ∧ t.slot = s.slot ∧ t.ser = s.ser ∧ AccumulatorsSame s t ∧ OutputsSame s t)

/-- 10_state.md R22, R16, 44_serializer_and_management.md R133: a blocked port takes nothing: no packet if it is an `RX` port, no
management command of any kind if it is `MG` (that RegisterHandler and the reserved operation wait as well is log entry 18, DEDUCED).
That the input stays at the head of what comes next and that the step is the Serializer's alone is THE MODEL'S CHOICE (log entry
2, DESIGN CHOICE): the rules say only that the port takes nothing. -/
def Obligations.ABlockedPortTakesNoPacket : Prop :=
  ∀ (s : State) (x : Stimulus) (rest : List Stimulus), s.stimuli = x :: rest →
    ((∃ p bytes, x = .rx p bytes ∧ s.portBlocked p = true) ∨ (∃ op id fc h, x = .mg op id fc h ∧ s.mgBlocked = true)) →
      ∃ t u, step s = .next t ∧ step { s with stimuli := [] } = .next u ∧ t = { u with stimuli := s.stimuli }

/-- 44_serializer_and_management.md sections 1 and 2: a packet that arrives at a quiescent block is received, accepted and completed,
and what this does is the execution of the instruction it decodes to. The COUNT of three steps is THE MODEL'S CHOICE: log entry 19
(DEDUCED) makes arrival, Decode and Submit one step, and Accept and Complete stay two, which R123 would let a model fuse. -/
def Obligations.ThreeStepsServeAPacketAtAQuiescentBlock : Prop :=
  ∀ (s : State) (p : Nat) (bytes : List Byte) (i : Instr),
    s.quiescent = true → decode (.packet p bytes) = .ok i →
      ∃ t u, Sys2Proof.core.run 3 ({ s with stimuli := [.rx p bytes] } : State) = .next t ∧ exec i s = .next u ∧
        t.mem = u.mem ∧ t.tx = u.tx ∧ t.ev = u.ev ∧ t.mg = u.mg ∧ t.slot = u.slot ∧ RunOver t

/-! ### Read requests -/

/-- 42_read_functions.md R101, R102, R105 (the count byte beyond 255 is decision D5): on a registered device the response is
the count and the packed cells; nothing is written. -/
def Obligations.BitReadsAnswerThePackedCells : Prop :=
  ∀ (s : State) (p : Nat) (dev : Byte) (payload : List Byte),
    Registered s dev → 4 ≤ payload.length → field0 payload + field1 payload ≤ 65536 →
      (s.slotAt 0x01#8 = .rc →
        ∃ t data, exec (.rc p dev payload) s = .next t ∧
          PackedBits s.mem dev.toNat .co (field0 payload) (field1 payload) data ∧
          Answered s t p dev 0x01#8 (BitVec.ofNat 8 data.length :: data) ∧ t.mem = s.mem) ∧
      (s.slotAt 0x02#8 = .rdi →
        ∃ t data, exec (.rdi p dev payload) s = .next t ∧
          PackedBits s.mem dev.toNat .di (field0 payload) (field1 payload) data ∧
          Answered s t p dev 0x02#8 (BitVec.ofNat 8 data.length :: data) ∧ t.mem = s.mem)

/-- 42_read_functions.md R103, R104, R106 (the count byte beyond 255 is decision D5). -/
def Obligations.WordReadsAnswerTheRegistersBigEndian : Prop :=
  ∀ (s : State) (p : Nat) (dev : Byte) (payload : List Byte),
    Registered s dev → 4 ≤ payload.length → field0 payload + field1 payload ≤ 65536 →
      (s.slotAt 0x03#8 = .rhr →
        ∃ t data, exec (.rhr p dev payload) s = .next t ∧
          PackedWords s.mem dev.toNat .hr (field0 payload) (field1 payload) data ∧
          Answered s t p dev 0x03#8 (BitVec.ofNat 8 data.length :: data) ∧ t.mem = s.mem) ∧
      (s.slotAt 0x04#8 = .rir →
        ∃ t data, exec (.rir p dev payload) s = .next t ∧
          PackedWords s.mem dev.toNat .ir (field0 payload) (field1 payload) data ∧
          Answered s t p dev 0x04#8 (BitVec.ofNat 8 data.length :: data) ∧ t.mem = s.mem)

/-! ### Write requests -/

/-- R64: no value of function code 5 is rejected, and any non-zero one stores 1. One coil is written, no address fails, and the
first four request bytes are echoed (43_write_functions.md section 2, 20_memory.md section 5). -/
def Obligations.WriteSingleCoilStoresTheNormalizedBit : Prop :=
  ∀ (s : State) (p : Nat) (dev : Byte) (payload : List Byte),
    Registered s dev → s.slotAt 0x05#8 = .wsc → 4 ≤ payload.length →
      ∃ t, exec (.wsc p dev payload) s = .next t ∧
        t.mem.bit? dev.toNat .co (field0 payload) = some (decide (field1 payload ≠ 0)) ∧
        OnlyBitsWritten s.mem t.mem dev.toNat .co (fun a => a = field0 payload) ∧
        Answered s t p dev 0x05#8 (payload.take 4)

/-- 43_write_functions.md R112 and 20_memory.md R38. -/
def Obligations.WriteSingleRegisterStoresTheWord : Prop :=
  ∀ (s : State) (p : Nat) (dev : Byte) (payload : List Byte),
    Registered s dev → s.slotAt 0x06#8 = .wsr → 4 ≤ payload.length →
      ∃ t, exec (.wsr p dev payload) s = .next t ∧
        t.mem.word? dev.toNat .hr (field0 payload) = some (readBE16 payload 2) ∧
        OnlyWordsWritten s.mem t.mem dev.toNat .hr (fun a => a = field0 payload) ∧
        Answered s t p dev 0x06#8 (payload.take 4)

/-- 43_write_functions.md R113, R115: exactly the run's coils, each from its data bit; payload byte 4 and the surplus data are
not examined (decision D9). -/
def Obligations.WriteMultipleCoilsStoresExactlyItsRun : Prop :=
  ∀ (s : State) (p : Nat) (dev : Byte) (payload : List Byte),
    Registered s dev → s.slotAt 0x0F#8 = .wmc → 5 ≤ payload.length → field0 payload + field1 payload ≤ 65536 →
      field1 payload ≤ 8 * (payload.length - 5) →
      ∃ t, exec (.wmc p dev payload) s = .next t ∧
        (∀ i < field1 payload,
          t.mem.bit? dev.toNat .co (field0 payload + i) = some (unpackBit (payload.drop 5) i)) ∧
        OnlyBitsWritten s.mem t.mem dev.toNat .co
          (fun a => field0 payload ≤ a ∧ a < field0 payload + field1 payload) ∧
        Answered s t p dev 0x0F#8 (payload.take 4)

/-- 43_write_functions.md R114 (an odd last data byte is ignored, decision D8; payload byte 4 is not examined, D9). -/
def Obligations.WriteMultipleRegistersStoresExactlyItsRun : Prop :=
  ∀ (s : State) (p : Nat) (dev : Byte) (payload : List Byte),
    Registered s dev → s.slotAt 0x10#8 = .wmr → 5 ≤ payload.length → field0 payload + field1 payload ≤ 65536 →
      (payload.length - 5) / 2 = field1 payload →
      ∃ t, exec (.wmr p dev payload) s = .next t ∧
        (∀ i < field1 payload,
          t.mem.word? dev.toNat .hr (field0 payload + i) = some (readBE16 (payload.drop 5) (2 * i))) ∧
        OnlyWordsWritten s.mem t.mem dev.toNat .hr
          (fun a => field0 payload ≤ a ∧ a < field0 payload + field1 payload) ∧
        Answered s t p dev 0x10#8 (payload.take 4)

/-- 43_write_functions.md section 4, R116 item 3 (derived there): a register write and then a read of the same register. -/
def Obligations.ARegisterReadsBackWhatWasWritten : Prop :=
  ∀ (s : State) (p q : Nat) (dev : Byte) (addr value : Word),
    Registered s dev → s.slotAt 0x06#8 = .wsr → s.slotAt 0x03#8 = .rhr →
      ∃ t u, exec (.wsr p dev (be16 addr ++ be16 value)) s = .next t ∧
        exec (.rhr q dev (be16 addr ++ be16 1#16)) t = .next u ∧
        Answered t u q dev 0x03#8 [0x02#8, value.extractLsb' 8 8, value.extractLsb' 0 8]

/-- 43_write_functions.md section 4, R116 item 3 (derived there): a multiple register write and then a read of the same run. -/
def Obligations.ARegisterRunReadsBackWhatWasWritten : Prop :=
  ∀ (s : State) (p r : Nat) (dev : Byte) (addr q : Word) (b : Byte) (data : List Byte),
    Registered s dev → s.slotAt 0x10#8 = .wmr → s.slotAt 0x03#8 = .rhr → addr.toNat + q.toNat ≤ 65536 →
      q.toNat ≤ 127 → data.length = 2 * q.toNat →
      ∃ t u, exec (.wmr p dev (be16 addr ++ be16 q ++ b :: data)) s = .next t ∧
        exec (.rhr r dev (be16 addr ++ be16 q)) t = .next u ∧
        Answered t u r dev 0x03#8 (BitVec.ofNat 8 (2 * q.toNat) :: data)

/-! ### Exceptions and dropped requests -/

/-- 30_encoding.md section 6: an unbound function code, after reset 0, 7 to 14 and 17 to 255: the exception response with code 1
(decision D2) to a unicast whatever its payload, nothing to a broadcast, no store access. -/
def Obligations.AnUnboundFunctionCodeIsIllegalFunction : Prop :=
  (∀ fc : Byte, State.reset.slotAt fc = .unbound ↔
    (fc.toNat = 0 ∨ (7 ≤ fc.toNat ∧ fc.toNat ≤ 14) ∨ 17 ≤ fc.toNat)) ∧
  ∀ (s : State) (i : Instr) (v : RequestView), i.request? = some v → s.slotAt v.fc = .unbound →
    (Registered s v.dev →
      ∃ t, exec i s = .next t ∧ t.mem = s.mem ∧ Answered s t v.port v.dev (v.fc ||| 0x80#8) [1#8]) ∧
    (v.dev = 0#8 → ∃ t, exec i s = .next t ∧ t.mem = s.mem ∧ OnlyStoreMayDiffer s t)

/-- 60_exceptions.md R142 and 20_memory.md R37 (short payloads are decision D6, short fc 15 data D7, the code number 2 is D2): a
check that fails answers `IllegalDataAddress` and leaves the store as it was. -/
def Obligations.AFailedCheckIsIllegalDataAddressAndWritesNothing : Prop :=
  ∀ (s : State) (i : Instr) (v : RequestView),
    i.request? = some v → Registered s v.dev → ChecksFail (s.slotAt v.fc) v.payload →
      ∃ t, exec i s = .next t ∧ t.mem = s.mem ∧ Answered s t v.port v.dev (v.fc ||| 0x80#8) [2#8]

/-- 44_serializer_and_management.md R127: a unicast to a device that is not registered is dropped with one event, whatever its function
code; ids 248 to 255 are never registered in a state of the invariant. That DROPUNKNOWN itself, executed for any other Frame, does
the same and tests nothing is THE MODEL'S CHOICE (log entry 21, DEDUCED): R127 gives it for a device that is not registered. -/
def Obligations.ARequestToAnUnknownDeviceIsDropped : Prop :=
  (∀ (s : State) (i : Instr) (v : RequestView),
    i.request? = some v → v.dev ≠ 0#8 → s.mem.devValid v.dev.toNat = false →
      exec i s = .next { s with ev := s.ev ++ [.unknownDevice v.port v.dev] }) ∧
  (∀ (s : State) (dev : Byte), Inv s → 248 ≤ dev.toNat → s.mem.devValid dev.toNat = false) ∧
  ∀ (s : State) (p : Nat) (f : Frame),
    exec (.dropunknown p f) s = .next { s with ev := s.ev ++ [.unknownDevice p f.deviceId] }

/-- 42_read_functions.md R100 step 1 (the code number 4 is decision D2, log entry 6): a default handler invoked for an absent device
answers `SlaveDeviceFailure` before it reads a cell. 44_serializer_and_management.md R128 gives `Unicast` for a REGISTERED device only,
and `Process` makes no other call of it (R136); that UNICAST of an absent one follows the same pseudocode, looks up no device first
and so reaches the handler is THE MODEL'S CHOICE (log entry 21, DEDUCED), on which the whole statement rests. -/
def Obligations.AHandlerOnAnAbsentDeviceIsSlaveDeviceFailure : Prop :=
  ∀ (s : State) (p : Nat) (f : Frame),
    s.mem.devValid f.deviceId.toNat = false → DefaultHandler (s.slotAt f.functionCode) →
      s.slotAt f.functionCode ≠ .unbound →
      ∃ t, exec (.unicast p f) s = .next t ∧ t.mem = s.mem ∧
        Answered s t p f.deviceId (f.functionCode ||| 0x80#8) [4#8]

/-- 44_serializer_and_management.md R136 (derived there; the code number 4 is decision D2, log entry 6): through `Process` no default
handler ever answers `SlaveDeviceFailure`. -/
def Obligations.NoRequestIsAnsweredSlaveDeviceFailure : Prop :=
  ∀ (s t : State) (i : Instr) (v : RequestView),
    i.request? = some v → DefaultHandler (s.slotAt v.fc) → exec i s = .next t →
      ¬ Answered s t v.port v.dev (v.fc ||| 0x80#8) [4#8]

/-! ### The Request Serializer -/

/-- R124: what processing an item is: the three tests of a Request in their order, whatever its trailer; or the lifecycle command,
which returns its status on `MG`. -/
def Obligations.ProcessingIsBroadcastDropUnicastOrTheCommand : Prop :=
  ∀ (s : State) (p : Nat) (f : Frame) (id : Byte),
    (f.deviceId = 0#8 → exec (instrOfItem (.req p f)) s = exec (.broadcast f) s) ∧
    (f.deviceId ≠ 0#8 → s.mem.devValid f.deviceId.toNat = false →
      exec (instrOfItem (.req p f)) s = exec (.dropunknown p f) s) ∧
    (f.deviceId ≠ 0#8 → s.mem.devValid f.deviceId.toNat = true →
      exec (instrOfItem (.req p f)) s = exec (.unicast p f) s) ∧
    (∃ t st, exec (instrOfItem (.mgmt (.create id))) s = .next t ∧ exec (.createdev id) s = .next t ∧
      t.mg = s.mg ++ [st]) ∧
    ∃ t st, exec (instrOfItem (.mgmt (.remove id))) s = .next t ∧ exec (.removedev id) s = .next t ∧ t.mg = s.mg ++ [st]

/-- 44_serializer_and_management.md R121 (decision D11): a Request of a port that is not blocked joins the queue at its tail, and
the port is blocked. That SUBMIT does so with a Frame that no Decode returned is THE MODEL'S CHOICE (log entry 21, DEDUCED). -/
def Obligations.SubmitJoinsTheQueueAtTheTail : Prop :=
  ∀ (s : State) (p : Nat) (f : Frame), s.portBlocked p = false →
    exec (.submit p f) s = .next { s with pending := s.pending ++ [.req p f] } ∧
      ({ s with pending := s.pending ++ [.req p f] } : State).portBlocked p = true

/-- R122: enabled, Accept takes the head of `pending`, and its producer is unblocked. -/
def Obligations.AcceptTakesTheOldestItem : Prop :=
  ∀ (s : State) (it : Item) (rest : List Item), s.ser = .idle → s.pending = it :: rest →
    ∃ t, exec .accept s = .next t ∧ t.ser = .processing it ∧ t.serState = .processing ∧ t.cur = some it ∧
      t.pending = rest ∧ (∀ p f, it = .req p f → Inv s → t.portBlocked p = false) ∧ t.mem = s.mem ∧ t.slot = s.slot ∧
      AccumulatorsSame s t ∧ OutputsSame s t ∧ t.stimuli = s.stimuli ∧ t.result = s.result

/-- R123: enabled, Complete is the execution of the instruction in flight and the return to `IDLE`; it presents at most one
response. -/
def Obligations.CompleteProcessesTheItemAndReturnsToIdle : Prop :=
  ∀ (s : State) (it : Item), s.ser = .processing it →
    ∃ t u, exec (instrOfItem it) s = .next u ∧ exec .complete s = .next t ∧ t = { u with ser := .idle } ∧
      t.serState = .idle ∧ t.cur = none ∧ (t.tx = s.tx ∨ ∃ x, t.tx = s.tx ++ [x])

/-- THE MODEL'S CHOICE (log entry 5): an operation of the arbiter that is not enabled waits, that is, changes nothing. -/
def Obligations.AnOperationThatIsNotEnabledWaits : Prop :=
  ∀ (s : State) (p : Nat) (f : Frame),
    ((s.ser ≠ .idle ∨ s.pending = []) → exec .accept s = .next s) ∧
    (s.ser = .idle → exec .complete s = .next s) ∧
    (s.portBlocked p = true → exec (.submit p f) s = .next s)

/-- 44_serializer_and_management.md section 2: the handler of the slot runs for every registered device in ascending order (decision
D10), each time on the store the one before it left; nothing is answered, and a failing one stops nothing. R125 gives it for a
Frame of id 0; that BROADCAST of another Frame ignores its id is THE MODEL'S CHOICE (log entry 21, DEDUCED). -/
def Obligations.BroadcastRunsTheHandlerOnEveryRegisteredDevice : Prop :=
  ∀ (s : State) (f : Frame),
    ∃ t, exec (.broadcast f) s = .next t ∧
      t.mem = (List.range' 1 247).foldl
        (fun m d => if s.mem.devValid d then (runHandler (s.slotAt f.functionCode) m d f.payload).mem else m) s.mem ∧
      OnlyStoreMayDiffer s t

/-- 44_serializer_and_management.md R125 (derived there from the handler rules): with a default handler, a broadcast request does to
every registered device what the same request addressed to it would do, and answers nothing. -/
def Obligations.ABroadcastActsOnEachDeviceAsAUnicastWould : Prop :=
  ∀ (s : State) (i : Instr) (v : RequestView),
    i.request? = some v → v.dev = 0#8 → DefaultHandler (s.slotAt v.fc) →
      ∃ t, exec i s = .next t ∧ OnlyStoreMayDiffer s t ∧
        (∀ dev : Byte, Registered s dev → dev.toNat ≤ 247 →
          ∃ u, exec (instrOfRequest v.port dev v.fc v.payload) s = .next u ∧
            t.mem.device? dev.toNat = u.mem.device? dev.toNat) ∧
        ∀ d, (d = 0 ∨ 247 < d ∨ s.mem.devValid d = false) → t.mem.device? d = s.mem.device? d

/-- 44_serializer_and_management.md R128: dispatch, then the handler's payload under the request's own id and function code, or the
exception response. R128 gives it for a registered device; that UNICAST of any other Frame follows the same pseudocode is THE
MODEL'S CHOICE (log entry 21, DEDUCED). -/
def Obligations.UnicastAnswersWithTheHandlersOutcome : Prop :=
  ∀ (s : State) (p : Nat) (f : Frame),
    let res := runHandler (s.slotAt f.functionCode) s.mem f.deviceId.toNat f.payload
    ∃ t, exec (.unicast p f) s = .next t ∧ t.mem = res.mem ∧
      (res.exc = .success → Answered s t p f.deviceId f.functionCode res.payload) ∧
      (res.exc ≠ .success → Answered s t p f.deviceId (f.functionCode ||| 0x80#8) [excCode res.exc])

/-- 44_serializer_and_management.md R129 (decision D14): the encoded response is on the port at once. -/
def Obligations.RespondPresentsTheEncodedFrame : Prop :=
  ∀ (s : State) (p : Nat) (r : Frame),
    ∃ t, exec (.respond p r) s = .next t ∧ Answered s t p r.deviceId r.functionCode r.payload ∧ t.mem = s.mem

/-! ### Device lifecycle and management -/

/-- R130: the range first, then existence; a created device has four banks of zeros. -/
def Obligations.CreateDeviceMakesAnAllZeroDevice : Prop :=
  ∀ (s : State) (id : Byte),
    ∃ t st, exec (.createdev id) s = .next t ∧ t.mg = s.mg ++ [st] ∧
      (¬ (1 ≤ id.toNat ∧ id.toNat ≤ 247) → st = .outOfRange ∧ t.mem = s.mem) ∧
      ((1 ≤ id.toNat ∧ id.toNat ≤ 247) → s.mem.devValid id.toNat = true → st = .alreadyExists ∧ t.mem = s.mem) ∧
      ((1 ≤ id.toNat ∧ id.toNat ≤ 247) → s.mem.devValid id.toNat = false →
        st = .ok ∧ t.mem.devValid id.toNat = true ∧
        (∀ a < 65536, ∀ b, t.mem.bit? id.toNat b a = some false) ∧
        (∀ a < 65536, ∀ b, t.mem.word? id.toNat b a = some 0#16) ∧
        ∀ d, d ≠ id.toNat → t.mem.device? d = s.mem.device? d) ∧
      ControlSame s t ∧ AccumulatorsSame s t ∧ t.tx = s.tx ∧ t.ev = s.ev ∧ t.result = s.result

/-- R131: the range first, then existence; the cells of a removed device cease to exist. -/
def Obligations.RemoveDeviceDeletesTheDevice : Prop :=
  ∀ (s : State) (id : Byte),
    ∃ t st, exec (.removedev id) s = .next t ∧ t.mg = s.mg ++ [st] ∧
      (¬ (1 ≤ id.toNat ∧ id.toNat ≤ 247) → st = .outOfRange ∧ t.mem = s.mem) ∧
      ((1 ≤ id.toNat ∧ id.toNat ≤ 247) → s.mem.devValid id.toNat = false → st = .notFound ∧ t.mem = s.mem) ∧
      ((1 ≤ id.toNat ∧ id.toNat ≤ 247) → s.mem.devValid id.toNat = true →
        st = .ok ∧ t.mem.devValid id.toNat = false ∧ (∀ b a, t.mem.bit? id.toNat b a = none) ∧
        (∀ b a, t.mem.word? id.toNat b a = none) ∧ ∀ d, d ≠ id.toNat → t.mem.device? d = s.mem.device? d) ∧
      ControlSame s t ∧ AccumulatorsSame s t ∧ t.tx = s.tx ∧ t.ev = s.ev ∧ t.result = s.result

/-- 44_serializer_and_management.md R132, 70_reset_and_hazards.md R165 (decision D12): while the block is quiescent one slot
changes and no other; at any other time the command is refused. -/
def Obligations.RegisterHandlerChangesOneSlotOfAQuiescentBlock : Prop :=
  ∀ (s : State) (fc : Byte) (h : HandlerId),
    (s.ser = .idle → s.pending = [] →
      ∃ t, exec (.reghandler fc h) s = .next t ∧ t.slotAt fc = h ∧ (∀ c, c ≠ fc → t.slotAt c = s.slotAt c) ∧
        t.mg = s.mg ++ [.ok] ∧ t.mem = s.mem ∧ t.ser = s.ser ∧ t.pending = s.pending ∧ t.stimuli = s.stimuli ∧
        AccumulatorsSame s t ∧ t.tx = s.tx ∧ t.ev = s.ev ∧ t.result = s.result) ∧
    ((s.ser ≠ .idle ∨ s.pending ≠ []) → exec (.reghandler fc h) s = .refused .registerHandlerNotQuiescent)

/-- 30_encoding.md R66 (decision D19): the reserved operation is refused. -/
def Obligations.TheReservedManagementOperationIsRefused : Prop :=
  ∀ s : State, exec .mgReserved s = .refused .reservedManagementOperation

/-! ### Reset and the whole machine -/

/-- 10_state.md R26, 70_reset_and_hazards.md R160, R161 (decisions D3 and D4): the reset state, and that asserted reset
leads to it from everywhere. -/
def Obligations.ResetLeavesTheSpecifiedState : Prop :=
  (∀ d, State.reset.mem.devValid d = decide (d = 1)) ∧
  (∀ a < 65536, (∀ b, State.reset.mem.bit? 1 b a = some false) ∧ ∀ b, State.reset.mem.word? 1 b a = some 0#16) ∧
  (∀ fc : Byte, State.reset.slotAt fc =
    if fc = 1#8 then .rc else if fc = 2#8 then .rdi else if fc = 3#8 then .rhr else if fc = 4#8 then .rir
    else if fc = 5#8 then .wsc else if fc = 6#8 then .wsr else if fc = 15#8 then .wmc else if fc = 16#8 then .wmr
    else .unbound) ∧
  State.reset.serState = .idle ∧ State.reset.cur = none ∧ State.reset.pending = [] ∧
  (∀ k, State.reset.crcAcc k = 0xFFFF#16) ∧
  ∀ (s : State) (rest : List Stimulus), s.stimuli = .rst :: rest →
    ∃ t, step s = .next t ∧ t.mem = State.reset.mem ∧ t.slot = State.reset.slot ∧ t.ser = .idle ∧ t.pending = [] ∧
      (∀ k, t.crcAcc k = 0xFFFF#16) ∧ OutputsSame s t ∧ t.stimuli = rest

/-- The invariant `Safety.Inv` holds after reset. -/
def Obligations.ResetMeetsTheInvariant : Prop := Inv State.reset

/-- 10_state.md R11 to R16, R20 (derived): every step keeps the canonical store, at most one waiting item a port, at most one open
lifecycle command, and only decoded Frames in the queue. -/
def Obligations.EveryStepKeepsTheInvariant : Prop :=
  ∀ s t : State, Inv s → step s = .next t → Inv t

/-- R117: with the default handlers no step but reset changes a discrete input or an input register of a device that exists
before and after it. -/
def Obligations.TheReadOnlyBanksNeverChangeUnderDefaultHandlers : Prop :=
  ∀ (s t : State) (d : Nat), BaselineTable s → (∀ rest, s.stimuli ≠ .rst :: rest) → step s = .next t →
    s.mem.devValid d = true → t.mem.devValid d = true →
      ∀ a, t.mem.bit? d .di a = s.mem.bit? d .di a ∧ t.mem.word? d .ir a = s.mem.word? d .ir a

/-- 44_serializer_and_management.md R120 (decision D26): only the processing of the item in flight, and reset (R160), writes the
Register Store. A step that is neither a reset nor the Complete of the item in flight leaves the store as it was, in `IDLE` and in
`PROCESSING`, whatever it meets; the Complete leaves the store that the item's own instruction does; and no request, of any
handler, registers a device, unregisters one or changes the dispatch table (R152). When a step is the Serializer's is log entry
2, the model's choice. -/
def Obligations.OnlyTheItemInFlightWritesTheStore : Prop :=
  (∀ s t : State, step s = .next t → ¬ MeetsReset s → ¬ (SerializersTurn s ∧ ∃ it, s.ser = .processing it) →
    t.mem = s.mem) ∧
  (∀ (s : State) (it : Item), SerializersTurn s → s.ser = .processing it →
    ∃ t u, step s = .next t ∧ exec (instrOfItem it) s = .next u ∧ t.mem = u.mem ∧ t.ser = .idle) ∧
  ∀ (s t : State) (i : Instr) (v : RequestView), i.request? = some v → exec i s = .next t →
    t.slot = s.slot ∧ ∀ d, t.mem.devValid d = s.mem.devValid d

/-- 20_memory.md R42, 44_serializer_and_management.md R121, R122 (derived): the queue is first-in first-out: a step leaves
it, takes its head into flight, appends one item, or is reset. -/
def Obligations.TheQueueIsFirstInFirstOut : Prop :=
  ∀ s t : State, step s = .next t →
    t.pending = s.pending ∨ (∃ it, s.pending = it :: t.pending ∧ s.ser = .idle ∧ t.ser = .processing it) ∨
      (∃ it, t.pending = s.pending ++ [it]) ∨ ((∃ rest, s.stimuli = .rst :: rest) ∧ t.pending = [])

/-- 10_state.md R24, 44_serializer_and_management.md R129 (derived): a step presents at most one event, one response and one status,
and never takes one back. -/
def Obligations.AStepPresentsAtMostOneOutputOfEachKind : Prop :=
  ∀ s t : State, step s = .next t →
    (t.ev = s.ev ∨ ∃ e, t.ev = s.ev ++ [e]) ∧ (t.tx = s.tx ∨ ∃ x, t.tx = s.tx ++ [x]) ∧
      (t.mg = s.mg ∨ ∃ st, t.mg = s.mg ++ [st])

/-- 60_exceptions.md R140 (derived): nothing stops the block but the two management commands that the spec has a model refuse (R165,
R66). That either of them is refused at a FREE `MG` port only, and WAITS at one that R133 blocks, is THE MODEL'S CHOICE (log entry
18, DEDUCED): R165 alone says that a model refuses the RegisterHandler of a busy block. -/
def Obligations.OnlyTwoManagementCommandsAreRefused : Prop :=
  ∀ (s : State) (r : Refusal),
    step s = .refused r ↔
      ∃ op id fc h rest, s.stimuli = .mg op id fc h :: rest ∧ s.mgBlocked = false ∧
        ((op = 2#2 ∧ s.quiescent = false ∧ r = .registerHandlerNotQuiescent) ∨
          (op = 3#2 ∧ r = .reservedManagementOperation))

/-- 44_serializer_and_management.md R134 (derived): without further input every waiting item is served. The bound of two steps an item
is THE MODEL'S CHOICE: Accept and Complete are two steps in it, which R123 would let a model fuse. -/
def Obligations.EveryWaitingItemIsServed : Prop :=
  ∀ s : State, s.stimuli = [] →
    ∃ t, Sys2Proof.core.run (2 * s.pending.length + 1) s = .next t ∧ RunOver t

/-- 20_memory.md R39 (derived there): a request performed twice leaves the cells as performed once, and is answered alike. -/
def Obligations.RequestsToDefaultHandlersAreIdempotent : Prop :=
  ∀ (s : State) (i : Instr) (v : RequestView),
    i.request? = some v → Registered s v.dev → DefaultHandler (s.slotAt v.fc) →
      ∃ t u x, exec i s = .next t ∧ exec i t = .next u ∧ StoreReadsSame t.mem u.mem ∧ t.tx = s.tx ++ [x] ∧
        u.tx = t.tx ++ [x]

/-- 43_write_functions.md R116 item 2, 42_read_functions.md R107 (derived there): a request to a default handler is answered from
its own device alone and leaves every other device as it was. -/
def Obligations.ARequestSeesAndTouchesOnlyItsOwnDevice : Prop :=
  ∀ (s s' : State) (i : Instr) (v : RequestView),
    i.request? = some v → Registered s v.dev → DefaultHandler (s.slotAt v.fc) → s'.slotAt v.fc = s.slotAt v.fc →
      s'.mem.device? v.dev.toNat = s.mem.device? v.dev.toNat →
      ∃ t t' x, exec i s = .next t ∧ exec i s' = .next t' ∧ t.tx = s.tx ++ [x] ∧ t'.tx = s'.tx ++ [x] ∧
        t.mem.device? v.dev.toNat = t'.mem.device? v.dev.toNat ∧
        ∀ d, d ≠ v.dev.toNat → t.mem.device? d = s.mem.device? d
end

