-- ==== Sys2Proof/Laws/Bytes.lean ====
section
/-! SUPPORT. The laws of bytes and words: splitting a word into its two bytes and joining them again, and the shape of what
Decode takes apart and Encode puts together. -/

namespace Sys2Proof.Machine

@[simp] theorem word_hi8_lo8 (v : Word) : word (hi8 v) (lo8 v) = v := by
  unfold word hi8 lo8
  ext i hi
  simp only [BitVec.getElem_or, BitVec.getElem_shiftLeft, BitVec.getElem_setWidth, BitVec.getLsbD_extractLsb']
  by_cases h : i < 8
  · simp [h, BitVec.getLsbD_eq_getElem hi]
  · have h8 : i - 8 < 8 := by omega
    have : 8 + (i - 8) = i := by omega
    simp [h, h8, this, BitVec.getLsbD_eq_getElem hi]

@[simp] theorem hi8_word (h l : Byte) : hi8 (word h l) = h := by
  unfold word hi8
  ext i hi
  have h1 : ¬ 8 + i < 8 := by omega
  have h2 : 8 + i < 16 := by omega
  have h3 : 8 + i - 8 = i := by omega
  simp [BitVec.getElem_extractLsb', h2, BitVec.getLsbD_eq_getElem hi]

@[simp] theorem lo8_word (h l : Byte) : lo8 (word h l) = l := by
  unfold word lo8
  ext i hi
  have h2 : i < 16 := by omega
  simp [BitVec.getElem_extractLsb', h2, hi]

theorem length_encodeFrame (f : Frame) : (encodeFrame f).length = f.payload.length + 4 := by
  simp [encodeFrame, frameBody, le16]

/-- The body of a packet that ends in a stamped trailer. -/
theorem packetBody_stamped (b : List Byte) (w : Word) : packetBody (b ++ le16 w) = b := by
  simp [packetBody, le16]

/-- The trailer of a packet that ends in a stamped trailer. -/
theorem readLE16_stamped (b : List Byte) (w : Word) : readLE16 (b ++ le16 w) ((b ++ le16 w).length - 2) = w := by
  have h : (b ++ le16 w).length - 2 = b.length := by simp [le16]
  rw [h]
  simp [readLE16, byteAt, le16]

/-- What Decode answers on a stamped packet (R91): the Frame, if there is at least one payload byte. -/
theorem decodePacket_stamped (dev fc : Byte) (payload : List Byte) :
    decodePacket ((dev :: fc :: payload) ++ le16 (crc16 (dev :: fc :: payload))) =
      if payload = [] then .shortFrame
      else .frame ⟨dev, fc, payload, crc16 (dev :: fc :: payload)⟩ := by
  unfold decodePacket
  rw [packetBody_stamped, readLE16_stamped]
  cases payload with
  | nil => simp [le16, Config.minFrame]
  | cons b t => simp [le16, Config.minFrame, byteAt]

/-- A packet is its body and its two trailer bytes. -/
theorem packet_eq_body_trailer {s : List Byte} (h : 2 ≤ s.length) :
    s = packetBody s ++ le16 (readLE16 s (s.length - 2)) := by
  obtain ⟨n, hn⟩ : ∃ n, s.length = n + 2 := ⟨s.length - 2, by omega⟩
  have hd : s.drop n = [byteAt s n, byteAt s (n + 1)] := by
    apply List.ext_getElem
    · simp [hn]
    · intro i h1 h2
      simp only [List.length_cons, List.length_nil] at h2
      interval_cases i <;> simp [byteAt, List.getElem_drop, hn]
  have : s.length - 2 = n := by omega
  rw [packetBody, this]
  conv_lhs => rw [← List.take_append_drop n s, hd]
  simp [le16, readLE16]

/-- What a decoded packet says of its Frame (R91): it is the packet of that Frame. -/
theorem decodePacket_frame {s : List Byte} {f : Frame} (h : decodePacket s = .frame f) :
    decodedFrame f ∧ encodeFrame f = s := by
  unfold decodePacket at h
  split at h
  · cases h
  · split at h
    · cases h
    · rename_i h1 h2
      simp only [Config.minFrame, Nat.not_lt] at h1
      have h2 := not_not.1 h2
      have hb : ∃ d c b t, packetBody s = d :: c :: b :: t := by
        have hl : (packetBody s).length = s.length - 2 := by simp [packetBody]
        match hp : packetBody s with
        | [] => simp [hp] at hl; omega
        | [_] => simp [hp] at hl; omega
        | [_, _] => simp [hp] at hl; omega
        | d :: c :: b :: t => exact ⟨d, c, b, t, rfl⟩
      obtain ⟨d, c, b, t, hb⟩ := hb
      have hs := packet_eq_body_trailer (s := s) (by omega)
      have h0 : byteAt s 0 = d := by rw [hs, hb]; rfl
      have h1' : byteAt s 1 = c := by rw [hs, hb]; rfl
      cases h
      rw [h0, h1', hb]
      refine ⟨⟨by simp, ?_⟩, ?_⟩
      · simp only [frameBody, List.drop_succ_cons, List.drop_zero]; rw [h2, hb]
      · conv_rhs => rw [hs, hb, h2, hb]
        simp [encodeFrame, frameBody]

end Sys2Proof.Machine
end

