-- ==== Sys2Proof/Laws/Decode.lean ====
section
/-! SUPPORT. The function-code map: every code selects one row, and the row with its free bits is the code again. -/

namespace Sys2Proof

open Machine

/-- A relation that holds branch by branch holds of two conditionals on one condition. -/
theorem ite_both {α : Type} (R : α → α → Prop) (c : Prop) [Decidable c] {a b a' b' : α} (h1 : R a a') (h2 : R b b') :
    R (if c then a else b) (if c then a' else b') := by
  by_cases h : c
  · rwa [if_pos h, if_pos h]
  · rwa [if_neg h, if_neg h]

/-- Which row a request selects depends on its function code alone. -/
theorem request?_instrOfRequest_map (p : Nat) (dev fc : Byte) (payload : List Byte) :
    (instrOfRequest p dev fc payload).request? =
      ((instrOfRequest 0 0#8 fc []).request?).map fun v => ⟨p, dev, v.fc, payload⟩ := by
  unfold instrOfRequest
  iterate 19
    refine ite_both (fun (i j : Instr) => i.request? = j.request?.map fun v => ⟨p, dev, v.fc, payload⟩) _ rfl ?_
  rfl

/-- The row that a function code selects is, with the row's free bits, that code again: the rows partition 0..255 (R60). -/
theorem fc_of_row : ∀ fc : Byte, ((instrOfRequest 0 0#8 fc []).request?).map RequestView.fc = some fc := by
  decide +kernel

/-- The request that a function code's row is, is the request again (R60). -/
theorem request?_instrOfRequest (p : Nat) (dev fc : Byte) (payload : List Byte) :
    (instrOfRequest p dev fc payload).request? = some ⟨p, dev, fc, payload⟩ := by
  rw [request?_instrOfRequest_map]
  obtain ⟨v, hv, rfl⟩ := Option.map_eq_some_iff.1 (fc_of_row fc)
  rw [hv]
  rfl

theorem request?_instrOfFrame (p : Nat) (f : Frame) :
    (instrOfFrame p f).request? = some ⟨p, f.deviceId, f.functionCode, f.payload⟩ :=
  request?_instrOfRequest ..

/-- A packet decodes to the request of its Frame, and to nothing else (R91). -/
theorem decode_packet_eq_ok_iff {p : Nat} {bytes : List Byte} {i : Instr} :
    decode (.packet p bytes) = .ok i ↔ ∃ f, decodePacket bytes = .frame f ∧ i = instrOfFrame p f := by
  simp only [decode]
  cases decodePacket bytes <;> simp [eq_comm]

end Sys2Proof
end

