-- ==== Sys2Proof/Laws/Store.lean ====
section
/-! SUPPORT. The laws of the Register Store: a read after a write to the same place gives the value written, a write leaves
every other place alone, and every operation keeps the canonical form. -/

namespace Sys2Proof

/-! ### Keyed lists -/

section Assoc

variable {α : Type}

@[simp] theorem Assoc.find?_nil (k : Nat) : Assoc.find? k ([] : List (Nat × α)) = none := rfl

@[simp] theorem Assoc.find?_put_self (k : Nat) (v : α) (l : List (Nat × α)) :
    Assoc.find? k (Assoc.put k v l) = some v := by
  induction l with
  | nil => simp [Assoc.put, Assoc.find?]
  | cons e t ih =>
    simp only [Assoc.put]
    split
    · simp [Assoc.find?]
    · split
      · simp [Assoc.find?]
      · simp [Assoc.find?, *]

theorem Assoc.find?_put_of_ne {j k : Nat} (h : j ≠ k) (v : α) (l : List (Nat × α)) :
    Assoc.find? j (Assoc.put k v l) = Assoc.find? j l := by
  induction l with
  | nil => simp [Assoc.put, Assoc.find?, Ne.symm h]
  | cons e t ih =>
    simp only [Assoc.put]
    split
    · simp [Assoc.find?, Ne.symm h]
    · split
      · rename_i _ he; simp [Assoc.find?, Ne.symm h, he]
      · simp [Assoc.find?, ih]

theorem Assoc.find?_put (j k : Nat) (v : α) (l : List (Nat × α)) :
    Assoc.find? j (Assoc.put k v l) = if j = k then some v else Assoc.find? j l := by
  split
  · subst_vars; exact Assoc.find?_put_self ..
  · exact Assoc.find?_put_of_ne ‹_› ..

theorem Assoc.find?_drop (j k : Nat) (l : List (Nat × α)) :
    Assoc.find? j (Assoc.drop k l) = if j = k then none else Assoc.find? j l := by
  induction l with
  | nil => simp [Assoc.drop]
  | cons e t ih =>
    unfold Assoc.drop at ih ⊢
    rw [List.filter_cons]
    by_cases hek : e.1 = k
    · simp only [hek, bne_self_eq_false, Bool.false_eq_true, ↓reduceIte, ih, Assoc.find?]
      by_cases hjk : j = k
      · simp [hjk]
      · simp [hjk, Ne.symm hjk]
    · simp only [bne_iff_ne, ne_eq, hek, not_false_eq_true, ↓reduceIte, Assoc.find?, ih]
      by_cases hej : e.1 = j
      · subst hej; simp [hek]
      · simp [hej]

theorem Assoc.mem_put {e : Nat × α} {k : Nat} {v : α} {l : List (Nat × α)} (h : e ∈ Assoc.put k v l) :
    e = (k, v) ∨ e ∈ l := by
  induction l with
  | nil => simpa [Assoc.put] using h
  | cons a t ih =>
    simp only [Assoc.put] at h
    split at h
    · simpa using h
    · split at h
      · rcases List.mem_cons.1 h with h | h
        · exact .inl h
        · exact .inr (List.mem_cons_of_mem _ h)
      · rcases List.mem_cons.1 h with h | h
        · exact .inr (h ▸ List.mem_cons_self ..)
        · exact (ih h).imp id (List.mem_cons_of_mem _)

theorem Assoc.mem_of_find? {k : Nat} {v : α} {l : List (Nat × α)} (h : Assoc.find? k l = some v) : (k, v) ∈ l := by
  induction l with
  | nil => simp at h
  | cons e t ih =>
    simp only [Assoc.find?] at h
    split at h
    · cases h; subst_vars; exact List.mem_cons_self ..
    · exact List.mem_cons_of_mem _ (ih h)

theorem Assoc.rising_put {k : Nat} {v : α} {l : List (Nat × α)} (h : Assoc.rising l) :
    Assoc.rising (Assoc.put k v l) := by
  induction l with
  | nil => simp [Assoc.put, Assoc.rising]
  | cons a t ih =>
    obtain ⟨ha, ht⟩ := List.pairwise_cons.1 h
    simp only [Assoc.put]
    split
    · rename_i hk
      refine List.pairwise_cons.2 ⟨fun e he => ?_, h⟩
      rcases List.mem_cons.1 he with rfl | he
      · exact hk
      · exact hk.trans (ha e he)
    · split
      · rename_i hk
        exact List.pairwise_cons.2 ⟨fun e he => hk ▸ ha e he, ht⟩
      · rename_i h1 h2
        refine List.pairwise_cons.2 ⟨fun e he => ?_, ih ht⟩
        rcases Assoc.mem_put he with rfl | he
        · exact lt_of_le_of_ne (Nat.not_lt.1 h1) h2
        · exact ha e he

theorem Assoc.rising_drop {k : Nat} {l : List (Nat × α)} (h : Assoc.rising l) : Assoc.rising (Assoc.drop k l) :=
  List.Pairwise.filter _ h

theorem Assoc.mem_drop {e : Nat × α} {k : Nat} {l : List (Nat × α)} : e ∈ Assoc.drop k l ↔ e ∈ l ∧ e.1 ≠ k := by
  simp [Assoc.drop]

end Assoc

/-! ### Cells -/

section Cells

variable {α : Type} [DecidableEq α]

theorem Cells.read_write (z : α) (l : List (Nat × α)) (a c : Nat) (v : α) :
    Cells.read z (Cells.write z l a v) c = if c = a then v else Cells.read z l c := by
  unfold Cells.read Cells.write
  split
  · rw [Assoc.find?_drop]; split <;> simp_all
  · rw [Assoc.find?_put]; split <;> simp_all

omit [DecidableEq α] in
@[simp] theorem Cells.read_nil (z : α) (a : Nat) : Cells.read z [] a = z := rfl

theorem Cells.wf_write {z : α} {l : List (Nat × α)} (h : Cells.wf z l) {a : Nat} (ha : a < Config.bankSize) (v : α) :
    Cells.wf z (Cells.write z l a v) := by
  unfold Cells.write
  split
  · exact ⟨Assoc.rising_drop h.1, fun e he => h.2 e (Assoc.mem_drop.1 he).1⟩
  · refine ⟨Assoc.rising_put h.1, fun e he => ?_⟩
    rcases Assoc.mem_put he with rfl | he
    · exact ⟨ha, ‹_›⟩
    · exact h.2 e he

end Cells

/-! ### One device -/

@[simp] theorem Device.readBit_zero (b : BitBank) (a : Nat) : Device.zero.readBit b a = false := by cases b <;> rfl

@[simp] theorem Device.readWord_zero (b : WordBank) (a : Nat) : Device.zero.readWord b a = 0#16 := by cases b <;> rfl

@[simp] theorem Device.bits_setBits (dev : Device) (b c : BitBank) (l : BitCells) :
    (dev.setBits b l).bits c = if c = b then l else dev.bits c := by cases b <;> cases c <;> rfl

@[simp] theorem Device.words_setBits (dev : Device) (b : BitBank) (c : WordBank) (l : BitCells) :
    (dev.setBits b l).words c = dev.words c := by cases b <;> cases c <;> rfl

@[simp] theorem Device.words_setWords (dev : Device) (b c : WordBank) (l : WordCells) :
    (dev.setWords b l).words c = if c = b then l else dev.words c := by cases b <;> cases c <;> rfl

@[simp] theorem Device.bits_setWords (dev : Device) (b : WordBank) (c : BitBank) (l : WordCells) :
    (dev.setWords b l).bits c = dev.bits c := by cases b <;> cases c <;> rfl

theorem Device.readBit_writeBit (dev : Device) (b c : BitBank) (a e : Nat) (v : Bit) :
    (dev.writeBit b a v).readBit c e = if c = b ∧ e = a then v else dev.readBit c e := by
  unfold Device.writeBit Device.readBit
  rw [Device.bits_setBits]
  split
  · subst_vars; rw [Cells.read_write]; simp
  · simp [*]

@[simp] theorem Device.readWord_writeBit (dev : Device) (b : BitBank) (c : WordBank) (a e : Nat) (v : Bit) :
    (dev.writeBit b a v).readWord c e = dev.readWord c e := by
  simp [Device.writeBit, Device.readWord]

theorem Device.readWord_writeWord (dev : Device) (b c : WordBank) (a e : Nat) (v : Word) :
    (dev.writeWord b a v).readWord c e = if c = b ∧ e = a then v else dev.readWord c e := by
  unfold Device.writeWord Device.readWord
  rw [Device.words_setWords]
  split
  · subst_vars; rw [Cells.read_write]; simp
  · simp [*]

@[simp] theorem Device.readBit_writeWord (dev : Device) (b : WordBank) (c : BitBank) (a e : Nat) (v : Word) :
    (dev.writeWord b a v).readBit c e = dev.readBit c e := by
  simp [Device.writeWord, Device.readBit]

theorem Device.wf_zero : Device.zero.wf := by decide

theorem Device.wf_writeBit {dev : Device} (h : dev.wf) (b : BitBank) {a : Nat} (ha : a < Config.bankSize) (v : Bit) :
    (dev.writeBit b a v).wf := by
  obtain ⟨h1, h2, h3, h4⟩ := h
  cases b
  · exact ⟨Cells.wf_write h1 ha v, h2, h3, h4⟩
  · exact ⟨h1, Cells.wf_write h2 ha v, h3, h4⟩

theorem Device.wf_writeWord {dev : Device} (h : dev.wf) (b : WordBank) {a : Nat} (ha : a < Config.bankSize) (v : Word) :
    (dev.writeWord b a v).wf := by
  obtain ⟨h1, h2, h3, h4⟩ := h
  cases b
  · exact ⟨h1, h2, Cells.wf_write h3 ha v, h4⟩
  · exact ⟨h1, h2, h3, Cells.wf_write h4 ha v⟩

/-! ### The store -/

theorem Memory.device?_putDevice (m : Memory) (d e : Nat) (dev : Device) :
    (m.putDevice d dev).device? e = if e = d then some dev else m.device? e :=
  Assoc.find?_put ..

theorem Memory.device?_dropDevice (m : Memory) (d e : Nat) :
    (m.dropDevice d).device? e = if e = d then none else m.device? e :=
  Assoc.find?_drop ..

theorem Memory.devValid_eq (m : Memory) (d : Nat) : m.devValid d = (m.device? d).isSome := rfl

theorem Memory.devValid_putDevice (m : Memory) (d e : Nat) (dev : Device) :
    (m.putDevice d dev).devValid e = (decide (e = d) || m.devValid e) := by
  rw [Memory.devValid_eq, Memory.device?_putDevice, Memory.devValid_eq]; split <;> simp_all

theorem Memory.devValid_dropDevice (m : Memory) (d e : Nat) :
    (m.dropDevice d).devValid e = (!decide (e = d) && m.devValid e) := by
  rw [Memory.devValid_eq, Memory.device?_dropDevice, Memory.devValid_eq]; split <;> simp_all

/-- Replacing the banks of a registered device registers and unregisters nobody. -/
theorem Memory.devValid_putDevice_of_some {m : Memory} {d : Nat} {dev : Device} (h : m.device? d = some dev)
    (dev' : Device) (e : Nat) : (m.putDevice d dev').devValid e = m.devValid e := by
  rw [Memory.devValid_putDevice, Memory.devValid_eq]
  by_cases he : e = d
  · subst he; simp [h]
  · simp [he]

theorem Memory.mem_registered {m : Memory} {d : Nat} :
    d ∈ m.registered ↔ (Config.devMin ≤ d ∧ d ≤ Config.devMax) ∧ m.devValid d = true := by
  simp only [Memory.registered, List.mem_filter, List.mem_range'_1, Config.devMin, Config.devMax]
  constructor <;> rintro ⟨h, h'⟩ <;> exact ⟨by omega, h'⟩

theorem Memory.registered_nodup (m : Memory) : m.registered.Nodup :=
  List.Nodup.filter _ (List.nodup_range' ..)

theorem Memory.wf_device {m : Memory} (h : m.wf) {d : Nat} {dev : Device} (hd : m.device? d = some dev) :
    (Config.devMin ≤ d ∧ d ≤ Config.devMax) ∧ dev.wf :=
  h.2 _ (Assoc.mem_of_find? hd)

theorem Memory.wf_putDevice {m : Memory} (h : m.wf) {d : Nat} (hd : Config.devMin ≤ d ∧ d ≤ Config.devMax) {dev : Device}
    (hdev : dev.wf) : (m.putDevice d dev).wf := by
  refine ⟨Assoc.rising_put h.1, fun e he => ?_⟩
  rcases Assoc.mem_put he with rfl | he
  · exact ⟨hd, hdev⟩
  · exact h.2 e he

theorem Memory.wf_dropDevice {m : Memory} (h : m.wf) (d : Nat) : (m.dropDevice d).wf :=
  ⟨Assoc.rising_drop h.1, fun e he => h.2 e (Assoc.mem_drop.1 he).1⟩

/-- What one write of an extension handler can do: nothing, or replace the banks of one registered device by banks in which
a single existing cell was written. -/
theorem Memory.applyWrite_cases (m : Memory) (w : Config.CellWrite) :
    m.applyWrite w = m ∨
      ∃ d dev dev', m.device? d = some dev ∧ m.applyWrite w = m.putDevice d dev' ∧ (dev.wf → dev'.wf) := by
  cases w with
  | bit d b a v =>
    simp only [Memory.applyWrite]
    split
    · exact .inl rfl
    · split
      · exact .inr ⟨d, _, _, ‹_›, rfl, fun h => Device.wf_writeBit h b ‹_› v⟩
      · exact .inl rfl
  | word d b a v =>
    simp only [Memory.applyWrite]
    split
    · exact .inl rfl
    · split
      · exact .inr ⟨d, _, _, ‹_›, rfl, fun h => Device.wf_writeWord h b ‹_› v⟩
      · exact .inl rfl

theorem Memory.wf_applyWrite {m : Memory} (h : m.wf) (w : Config.CellWrite) : (m.applyWrite w).wf := by
  obtain h1 | ⟨d, dev, dev', hd, h1, h2⟩ := m.applyWrite_cases w
  · rwa [h1]
  · have := Memory.wf_device h hd
    exact h1 ▸ Memory.wf_putDevice h this.1 (h2 this.2)

theorem Memory.devValid_applyWrite (m : Memory) (w : Config.CellWrite) (e : Nat) :
    (m.applyWrite w).devValid e = m.devValid e := by
  obtain h1 | ⟨d, dev, dev', hd, h1, -⟩ := m.applyWrite_cases w
  · rw [h1]
  · rw [h1, Memory.devValid_putDevice_of_some hd]

theorem Memory.wf_applyWrites {m : Memory} (h : m.wf) (ws : List Config.CellWrite) :
    (ws.foldl Memory.applyWrite m).wf := by
  induction ws generalizing m with
  | nil => exact h
  | cons w ws ih => exact ih (Memory.wf_applyWrite h w)

theorem Memory.devValid_applyWrites (m : Memory) (ws : List Config.CellWrite) (e : Nat) :
    (ws.foldl Memory.applyWrite m).devValid e = m.devValid e := by
  induction ws generalizing m with
  | nil => rfl
  | cons w ws ih => exact (ih _).trans (Memory.devValid_applyWrite m w e)

end Sys2Proof
end

