-- ==== Sys2Proof/Laws/Handlers.lean ====
section
/-! SUPPORT. What the operand helpers and the handlers can do, said once: the prologue's outcomes, the packed bytes of a
read, the cells a multiple write changes, and the one device a default handler can change. -/

namespace Sys2Proof.Machine

/-! ### The prologue -/

/-- The prologue succeeds exactly so (R100). -/
theorem prologue_eq_ok_iff {m : Memory} {d : Nat} {payload : List Byte} {fmt : Format} {x : Fields} :
    prologue m d payload fmt = .ok x ↔
      m.device? d = some x.dev ∧ fmt.minLength ≤ payload.length ∧
        (fmt.ranged = true → outOfRange (readBE16 payload 0) (readBE16 payload 2) = false) ∧
        x.f0 = readBE16 payload 0 ∧ x.f1 = readBE16 payload 2 := by
  unfold prologue
  cases hd : m.device? d with
  | none => simp
  | some dev =>
    by_cases hl : payload.length < fmt.minLength
    · simp [hl]
    · by_cases hr : (fmt.ranged && outOfRange (readBE16 payload 0) (readBE16 payload 2)) = true
      · simp only [hl, hr, ↓reduceIte, reduceCtorEq, false_iff, not_and]
        intro _ _ h
        simp_all
      · have hr' : fmt.ranged = true → outOfRange (readBE16 payload 0) (readBE16 payload 2) = false := by
          simpa using hr
        simp only [hl, hr, ↓reduceIte, Bool.false_eq_true, Except.ok.injEq]
        constructor
        · rintro rfl; exact ⟨rfl, by omega, hr', rfl, rfl⟩
        · rintro ⟨h1, -, -, h2, h3⟩
          cases x; simp_all

/-- The prologue fails exactly so, the device lookup first (R100, R146). -/
theorem prologue_eq_error_iff {m : Memory} {d : Nat} {payload : List Byte} {fmt : Format} {e : Exception} :
    prologue m d payload fmt = .error e ↔
      (m.device? d = none ∧ e = .slaveDeviceFailure) ∨
        (m.devValid d = true ∧ e = .illegalDataAddress ∧
          (payload.length < fmt.minLength ∨
            (fmt.ranged = true ∧ outOfRange (readBE16 payload 0) (readBE16 payload 2) = true))) := by
  unfold prologue
  rw [Memory.devValid_eq]
  cases hd : m.device? d with
  | none => simpa using eq_comm
  | some dev =>
    by_cases hl : payload.length < fmt.minLength
    · simpa [hl] using eq_comm
    · by_cases hr : (fmt.ranged && outOfRange (readBE16 payload 0) (readBE16 payload 2)) = true
      · have hr' := hr
        rw [Bool.and_eq_true] at hr'
        simpa [hr'.1, hr'.2] using eq_comm
      · have hr' := hr
        rw [Bool.and_eq_true] at hr'
        simp [hl, hr, hr']

theorem outOfRange_eq_false_iff (a q : Word) : outOfRange a q = false ↔ a.toNat + q.toNat ≤ 65536 := by
  simp [outOfRange, Config.addrLimit]

theorem outOfRange_eq_true_iff (a q : Word) : outOfRange a q = true ↔ 65536 < a.toNat + q.toNat := by
  simp [outOfRange, Config.addrLimit]

/-! ### Packing -/

theorem getLsbD_byteOfBits (f : Nat → Bit) {i : Nat} (hi : i < 8) : (byteOfBits f).getLsbD i = f i := by
  unfold byteOfBits
  rw [BitVec.getLsbD_ofBoolListLE]
  interval_cases i <;> rfl

@[simp] theorem length_packBits (dev : Device) (b : BitBank) (a q : Nat) :
    (packBits dev b a q).length = (q + 7) / 8 := by simp [packBits]

/-- The bits of a packed run (R32, R105). -/
theorem unpackBit_packBits (dev : Device) (b : BitBank) (a q : Nat) {i : Nat} (hi : i < 8 * ((q + 7) / 8)) :
    unpackBit (packBits dev b a q) i = if i < q then dev.readBit b (a + i) else false := by
  have h1 : i / 8 < (q + 7) / 8 := by omega
  have h2 : 8 * (i / 8) + i % 8 = i := Nat.div_add_mod i 8
  unfold unpackBit packBits byteAt
  simp only [List.getD_eq_getElem?_getD, List.getElem?_map, List.getElem?_range h1, Option.map_some, Option.getD_some]
  rw [getLsbD_byteOfBits _ (Nat.mod_lt i (by decide)), h2]

@[simp] theorem length_packWords (dev : Device) (b : WordBank) (a q : Nat) :
    (packWords dev b a q).length = 2 * q := by
  induction q with
  | zero => rfl
  | succ q ih =>
    have : packWords dev b a (q + 1) = packWords dev b a q ++ be16 (dev.readWord b (a + q)) := by
      simp [packWords, List.range_succ]
    rw [this, List.length_append, ih]; simp [be16]; omega

theorem packWords_succ (dev : Device) (b : WordBank) (a q : Nat) :
    packWords dev b a (q + 1) = packWords dev b a q ++ be16 (dev.readWord b (a + q)) := by
  simp [packWords, List.range_succ]

/-! ### Multiple writes -/

theorem writeBits_succ (dev : Device) (b : BitBank) (a q : Nat) (f : Nat → Bit) :
    writeBits dev b a (q + 1) f = (writeBits dev b a q f).writeBit b (a + q) (f q) := by
  simp [writeBits, List.range_succ]

theorem writeWords_succ (dev : Device) (b : WordBank) (a q : Nat) (f : Nat → Word) :
    writeWords dev b a (q + 1) f = (writeWords dev b a q f).writeWord b (a + q) (f q) := by
  simp [writeWords, List.range_succ]

/-- A multiple bit write changes exactly its run (R113). -/
theorem readBit_writeBits (dev : Device) (b c : BitBank) (a q e : Nat) (f : Nat → Bit) :
    (writeBits dev b a q f).readBit c e =
      if c = b ∧ a ≤ e ∧ e < a + q then f (e - a) else dev.readBit c e := by
  induction q with
  | zero =>
    have : ¬ (c = b ∧ a ≤ e ∧ e < a + 0) := by omega
    rw [if_neg this]; rfl
  | succ q ih =>
    rw [writeBits_succ, Device.readBit_writeBit, ih]
    by_cases hc : c = b
    · by_cases he : e = a + q
      · subst he; simp [hc]
      · have : (a ≤ e ∧ e < a + (q + 1)) ↔ (a ≤ e ∧ e < a + q) := by omega
        simp [hc, he, this]
    · simp [hc]

@[simp] theorem readWord_writeBits (dev : Device) (b : BitBank) (c : WordBank) (a q e : Nat) (f : Nat → Bit) :
    (writeBits dev b a q f).readWord c e = dev.readWord c e := by
  induction q with
  | zero => rfl
  | succ q ih => rw [writeBits_succ, Device.readWord_writeBit, ih]

/-- A multiple word write changes exactly its run (R114). -/
theorem readWord_writeWords (dev : Device) (b c : WordBank) (a q e : Nat) (f : Nat → Word) :
    (writeWords dev b a q f).readWord c e =
      if c = b ∧ a ≤ e ∧ e < a + q then f (e - a) else dev.readWord c e := by
  induction q with
  | zero =>
    have : ¬ (c = b ∧ a ≤ e ∧ e < a + 0) := by omega
    rw [if_neg this]; rfl
  | succ q ih =>
    rw [writeWords_succ, Device.readWord_writeWord, ih]
    by_cases hc : c = b
    · by_cases he : e = a + q
      · subst he; simp [hc]
      · have : (a ≤ e ∧ e < a + (q + 1)) ↔ (a ≤ e ∧ e < a + q) := by omega
        simp [hc, he, this]
    · simp [hc]

@[simp] theorem readBit_writeWords (dev : Device) (b : WordBank) (c : BitBank) (a q e : Nat) (f : Nat → Word) :
    (writeWords dev b a q f).readBit c e = dev.readBit c e := by
  induction q with
  | zero => rfl
  | succ q ih => rw [writeWords_succ, Device.readBit_writeWord, ih]

theorem wf_writeBits {dev : Device} (h : dev.wf) (b : BitBank) {a q : Nat} (ha : a + q ≤ Config.bankSize)
    (f : Nat → Bit) : (writeBits dev b a q f).wf := by
  induction q with
  | zero => exact h
  | succ q ih => rw [writeBits_succ]; exact Device.wf_writeBit (ih (by omega)) b (by omega) _

theorem wf_writeWords {dev : Device} (h : dev.wf) (b : WordBank) {a q : Nat} (ha : a + q ≤ Config.bankSize)
    (f : Nat → Word) : (writeWords dev b a q f).wf := by
  induction q with
  | zero => exact h
  | succ q ih => rw [writeWords_succ]; exact Device.wf_writeWord (ih (by omega)) b (by omega) _

/-! ### Handlers -/

/-- What a default handler can do to the store (R107, R110, R116): nothing, or, on `Success` only, replace the banks of its
own registered device, leaving its read-only banks as they were. -/
theorem runHandler_default_cases {h : HandlerId} (hh : ∀ k, h ≠ .ext k) (m : Memory) (d : Nat) (payload : List Byte) :
    (runHandler h m d payload).mem = m ∨
      ∃ dev dev', m.device? d = some dev ∧ (runHandler h m d payload).mem = m.putDevice d dev' ∧
        (dev.wf → dev'.wf) ∧ (∀ a, dev'.readBit .di a = dev.readBit .di a) ∧
        (∀ a, dev'.readWord .ir a = dev.readWord .ir a) ∧ (runHandler h m d payload).exc = .success := by
  cases h with
  | unbound => exact .inl rfl
  | rc => left; simp only [runHandler, handlerRc]; split <;> rfl
  | rdi => left; simp only [runHandler, handlerRdi]; split <;> rfl
  | rhr => left; simp only [runHandler, handlerRhr]; split <;> rfl
  | rir => left; simp only [runHandler, handlerRir]; split <;> rfl
  | wsc =>
    simp only [runHandler, handlerWsc]
    split
    · exact .inl rfl
    · rename_i x hx
      obtain ⟨h1, -⟩ := prologue_eq_ok_iff.1 hx
      refine .inr ⟨x.dev, _, h1, rfl, fun hw => Device.wf_writeBit hw _ x.f0.isLt _, fun a => ?_, fun a => by simp, rfl⟩
      rw [Device.readBit_writeBit]; simp
  | wsr =>
    simp only [runHandler, handlerWsr]
    split
    · exact .inl rfl
    · rename_i x hx
      obtain ⟨h1, -⟩ := prologue_eq_ok_iff.1 hx
      refine .inr ⟨x.dev, _, h1, rfl, fun hw => Device.wf_writeWord hw _ x.f0.isLt _, fun a => by simp, fun a => ?_, rfl⟩
      rw [Device.readWord_writeWord]; simp
  | wmc =>
    simp only [runHandler, handlerWmc]
    split
    · exact .inl rfl
    · rename_i x hx
      obtain ⟨h1, -, h3, h4, h5⟩ := prologue_eq_ok_iff.1 hx
      split
      · exact .inl rfl
      · have hr := (outOfRange_eq_false_iff ..).1 (h3 rfl)
        refine .inr ⟨x.dev, _, h1, rfl, fun hw => wf_writeBits hw _ (by rw [h4, h5]; exact hr) _, fun a => ?_,
          fun a => by simp, rfl⟩
        rw [readBit_writeBits]; simp
  | wmr =>
    simp only [runHandler, handlerWmr]
    split
    · exact .inl rfl
    · rename_i x hx
      obtain ⟨h1, -, h3, h4, h5⟩ := prologue_eq_ok_iff.1 hx
      split
      · exact .inl rfl
      · have hr := (outOfRange_eq_false_iff ..).1 (h3 rfl)
        refine .inr ⟨x.dev, _, h1, rfl, fun hw => wf_writeWords hw _ (by rw [h4, h5]; exact hr) _, fun a => by simp,
          fun a => ?_, rfl⟩
        rw [readWord_writeWords]; simp
  | ext k => exact absurd rfl (hh k)

/-- Every handler, an extension handler too, keeps the canonical form of the store. -/
theorem wf_runHandler (h : HandlerId) {m : Memory} (hm : m.wf) (d : Nat) (payload : List Byte) :
    (runHandler h m d payload).mem.wf := by
  by_cases hh : ∀ k, h ≠ .ext k
  · obtain h1 | ⟨dev, dev', h1, h2, h3, -⟩ := runHandler_default_cases hh m d payload
    · rwa [h1]
    · have := Memory.wf_device hm h1
      exact h2 ▸ Memory.wf_putDevice hm this.1 (h3 this.2)
  · push Not at hh
    obtain ⟨k, rfl⟩ := hh
    exact Memory.wf_applyWrites hm _

/-- No handler registers or unregisters a device (R137, R152). -/
theorem devValid_runHandler (h : HandlerId) (m : Memory) (d : Nat) (payload : List Byte) (e : Nat) :
    (runHandler h m d payload).mem.devValid e = m.devValid e := by
  by_cases hh : ∀ k, h ≠ .ext k
  · obtain h1 | ⟨dev, dev', h1, h2, -⟩ := runHandler_default_cases hh m d payload
    · rw [h1]
    · rw [h2, Memory.devValid_putDevice_of_some h1]
  · push Not at hh
    obtain ⟨k, rfl⟩ := hh
    exact Memory.devValid_applyWrites ..

/-- A default handler leaves every other device alone (R116). -/
theorem device?_runHandler_of_ne {h : HandlerId} (hh : ∀ k, h ≠ .ext k) (m : Memory) {d e : Nat} (he : e ≠ d)
    (payload : List Byte) : (runHandler h m d payload).mem.device? e = m.device? e := by
  obtain h1 | ⟨dev, dev', -, h2, -⟩ := runHandler_default_cases hh m d payload
  · rw [h1]
  · rw [h2, Memory.device?_putDevice, if_neg he]

/-- The prologue depends on the store only through the device. -/
theorem prologue_congr {m m' : Memory} {d d' : Nat} (h : m.device? d = m'.device? d') (payload : List Byte) (fmt : Format) :
    prologue m d payload fmt = prologue m' d' payload fmt := by
  unfold prologue; rw [h]

end Sys2Proof.Machine
end

