-- ==== Sys2Proof/Laws/State.lean ====
section
/-! SUPPORT. One lemma for each field after each update of the state, so that no later proof unfolds a record update. -/

namespace Sys2Proof.Machine

variable (s : State)

@[simp] theorem State.mem_setMem (m : Memory) : (s.setMem m).mem = m := rfl
@[simp] theorem State.slot_setMem (m : Memory) : (s.setMem m).slot = s.slot := rfl
@[simp] theorem State.ser_setMem (m : Memory) : (s.setMem m).ser = s.ser := rfl
@[simp] theorem State.pending_setMem (m : Memory) : (s.setMem m).pending = s.pending := rfl
@[simp] theorem State.crcPort_setMem (m : Memory) : (s.setMem m).crcPort = s.crcPort := rfl
@[simp] theorem State.crcSer_setMem (m : Memory) : (s.setMem m).crcSer = s.crcSer := rfl
@[simp] theorem State.result_setMem (m : Memory) : (s.setMem m).result = s.result := rfl
@[simp] theorem State.tx_setMem (m : Memory) : (s.setMem m).tx = s.tx := rfl
@[simp] theorem State.mg_setMem (m : Memory) : (s.setMem m).mg = s.mg := rfl
@[simp] theorem State.ev_setMem (m : Memory) : (s.setMem m).ev = s.ev := rfl
@[simp] theorem State.stimuli_setMem (m : Memory) : (s.setMem m).stimuli = s.stimuli := rfl
@[simp] theorem State.crcAcc_setMem (m : Memory) (k : Codec) : (s.setMem m).crcAcc k = s.crcAcc k := by cases k <;> rfl
@[simp] theorem State.slotAt_setMem (m : Memory) (c : Byte) : (s.setMem m).slotAt c = s.slotAt c := rfl

@[simp] theorem State.mem_setSlot (fc : Byte) (h : HandlerId) : (s.setSlot fc h).mem = s.mem := rfl
@[simp] theorem State.slot_setSlot (fc : Byte) (h : HandlerId) : (s.setSlot fc h).slot = s.slot.set fc.toNat h fc.isLt := rfl
@[simp] theorem State.ser_setSlot (fc : Byte) (h : HandlerId) : (s.setSlot fc h).ser = s.ser := rfl
@[simp] theorem State.pending_setSlot (fc : Byte) (h : HandlerId) : (s.setSlot fc h).pending = s.pending := rfl
@[simp] theorem State.crcPort_setSlot (fc : Byte) (h : HandlerId) : (s.setSlot fc h).crcPort = s.crcPort := rfl
@[simp] theorem State.crcSer_setSlot (fc : Byte) (h : HandlerId) : (s.setSlot fc h).crcSer = s.crcSer := rfl
@[simp] theorem State.result_setSlot (fc : Byte) (h : HandlerId) : (s.setSlot fc h).result = s.result := rfl
@[simp] theorem State.tx_setSlot (fc : Byte) (h : HandlerId) : (s.setSlot fc h).tx = s.tx := rfl
@[simp] theorem State.mg_setSlot (fc : Byte) (h : HandlerId) : (s.setSlot fc h).mg = s.mg := rfl
@[simp] theorem State.ev_setSlot (fc : Byte) (h : HandlerId) : (s.setSlot fc h).ev = s.ev := rfl
@[simp] theorem State.stimuli_setSlot (fc : Byte) (h : HandlerId) : (s.setSlot fc h).stimuli = s.stimuli := rfl
@[simp] theorem State.crcAcc_setSlot (fc : Byte) (h : HandlerId) (k : Codec) : (s.setSlot fc h).crcAcc k = s.crcAcc k := by cases k <;> rfl

@[simp] theorem State.mem_setSer (x : Serializer) : (s.setSer x).mem = s.mem := rfl
@[simp] theorem State.slot_setSer (x : Serializer) : (s.setSer x).slot = s.slot := rfl
@[simp] theorem State.ser_setSer (x : Serializer) : (s.setSer x).ser = x := rfl
@[simp] theorem State.pending_setSer (x : Serializer) : (s.setSer x).pending = s.pending := rfl
@[simp] theorem State.crcPort_setSer (x : Serializer) : (s.setSer x).crcPort = s.crcPort := rfl
@[simp] theorem State.crcSer_setSer (x : Serializer) : (s.setSer x).crcSer = s.crcSer := rfl
@[simp] theorem State.result_setSer (x : Serializer) : (s.setSer x).result = s.result := rfl
@[simp] theorem State.tx_setSer (x : Serializer) : (s.setSer x).tx = s.tx := rfl
@[simp] theorem State.mg_setSer (x : Serializer) : (s.setSer x).mg = s.mg := rfl
@[simp] theorem State.ev_setSer (x : Serializer) : (s.setSer x).ev = s.ev := rfl
@[simp] theorem State.stimuli_setSer (x : Serializer) : (s.setSer x).stimuli = s.stimuli := rfl
@[simp] theorem State.crcAcc_setSer (x : Serializer) (k : Codec) : (s.setSer x).crcAcc k = s.crcAcc k := by cases k <;> rfl
@[simp] theorem State.slotAt_setSer (x : Serializer) (c : Byte) : (s.setSer x).slotAt c = s.slotAt c := rfl

@[simp] theorem State.mem_setPending (l : List Item) : (s.setPending l).mem = s.mem := rfl
@[simp] theorem State.slot_setPending (l : List Item) : (s.setPending l).slot = s.slot := rfl
@[simp] theorem State.ser_setPending (l : List Item) : (s.setPending l).ser = s.ser := rfl
@[simp] theorem State.pending_setPending (l : List Item) : (s.setPending l).pending = l := rfl
@[simp] theorem State.crcPort_setPending (l : List Item) : (s.setPending l).crcPort = s.crcPort := rfl
@[simp] theorem State.crcSer_setPending (l : List Item) : (s.setPending l).crcSer = s.crcSer := rfl
@[simp] theorem State.result_setPending (l : List Item) : (s.setPending l).result = s.result := rfl
@[simp] theorem State.tx_setPending (l : List Item) : (s.setPending l).tx = s.tx := rfl
@[simp] theorem State.mg_setPending (l : List Item) : (s.setPending l).mg = s.mg := rfl
@[simp] theorem State.ev_setPending (l : List Item) : (s.setPending l).ev = s.ev := rfl
@[simp] theorem State.stimuli_setPending (l : List Item) : (s.setPending l).stimuli = s.stimuli := rfl
@[simp] theorem State.crcAcc_setPending (l : List Item) (k : Codec) : (s.setPending l).crcAcc k = s.crcAcc k := by cases k <;> rfl
@[simp] theorem State.slotAt_setPending (l : List Item) (c : Byte) : (s.setPending l).slotAt c = s.slotAt c := rfl

@[simp] theorem State.mem_setCrcAcc (k : Codec) (w : Word) : (s.setCrcAcc k w).mem = s.mem := by cases k <;> rfl
@[simp] theorem State.slot_setCrcAcc (k : Codec) (w : Word) : (s.setCrcAcc k w).slot = s.slot := by cases k <;> rfl
@[simp] theorem State.ser_setCrcAcc (k : Codec) (w : Word) : (s.setCrcAcc k w).ser = s.ser := by cases k <;> rfl
@[simp] theorem State.pending_setCrcAcc (k : Codec) (w : Word) : (s.setCrcAcc k w).pending = s.pending := by cases k <;> rfl
@[simp] theorem State.result_setCrcAcc (k : Codec) (w : Word) : (s.setCrcAcc k w).result = s.result := by cases k <;> rfl
@[simp] theorem State.tx_setCrcAcc (k : Codec) (w : Word) : (s.setCrcAcc k w).tx = s.tx := by cases k <;> rfl
@[simp] theorem State.mg_setCrcAcc (k : Codec) (w : Word) : (s.setCrcAcc k w).mg = s.mg := by cases k <;> rfl
@[simp] theorem State.ev_setCrcAcc (k : Codec) (w : Word) : (s.setCrcAcc k w).ev = s.ev := by cases k <;> rfl
@[simp] theorem State.stimuli_setCrcAcc (k : Codec) (w : Word) : (s.setCrcAcc k w).stimuli = s.stimuli := by cases k <;> rfl
@[simp] theorem State.slotAt_setCrcAcc (k : Codec) (w : Word) (c : Byte) : (s.setCrcAcc k w).slotAt c = s.slotAt c := by cases k <;> rfl

@[simp] theorem State.mem_returnValue (r : OpResult) : (s.returnValue r).mem = s.mem := rfl
@[simp] theorem State.slot_returnValue (r : OpResult) : (s.returnValue r).slot = s.slot := rfl
@[simp] theorem State.ser_returnValue (r : OpResult) : (s.returnValue r).ser = s.ser := rfl
@[simp] theorem State.pending_returnValue (r : OpResult) : (s.returnValue r).pending = s.pending := rfl
@[simp] theorem State.crcPort_returnValue (r : OpResult) : (s.returnValue r).crcPort = s.crcPort := rfl
@[simp] theorem State.crcSer_returnValue (r : OpResult) : (s.returnValue r).crcSer = s.crcSer := rfl
@[simp] theorem State.result_returnValue (r : OpResult) : (s.returnValue r).result = some r := rfl
@[simp] theorem State.tx_returnValue (r : OpResult) : (s.returnValue r).tx = s.tx := rfl
@[simp] theorem State.mg_returnValue (r : OpResult) : (s.returnValue r).mg = s.mg := rfl
@[simp] theorem State.ev_returnValue (r : OpResult) : (s.returnValue r).ev = s.ev := rfl
@[simp] theorem State.stimuli_returnValue (r : OpResult) : (s.returnValue r).stimuli = s.stimuli := rfl
@[simp] theorem State.crcAcc_returnValue (r : OpResult) (k : Codec) : (s.returnValue r).crcAcc k = s.crcAcc k := by cases k <;> rfl
@[simp] theorem State.slotAt_returnValue (r : OpResult) (c : Byte) : (s.returnValue r).slotAt c = s.slotAt c := rfl

@[simp] theorem State.mem_present (p : Nat) (bytes : List Byte) : (s.present p bytes).mem = s.mem := rfl
@[simp] theorem State.slot_present (p : Nat) (bytes : List Byte) : (s.present p bytes).slot = s.slot := rfl
@[simp] theorem State.ser_present (p : Nat) (bytes : List Byte) : (s.present p bytes).ser = s.ser := rfl
@[simp] theorem State.pending_present (p : Nat) (bytes : List Byte) : (s.present p bytes).pending = s.pending := rfl
@[simp] theorem State.crcPort_present (p : Nat) (bytes : List Byte) : (s.present p bytes).crcPort = s.crcPort := rfl
@[simp] theorem State.crcSer_present (p : Nat) (bytes : List Byte) : (s.present p bytes).crcSer = s.crcSer := rfl
@[simp] theorem State.result_present (p : Nat) (bytes : List Byte) : (s.present p bytes).result = s.result := rfl
@[simp] theorem State.tx_present (p : Nat) (bytes : List Byte) : (s.present p bytes).tx = s.tx ++ [{ port := p, bytes := bytes }] := rfl
@[simp] theorem State.mg_present (p : Nat) (bytes : List Byte) : (s.present p bytes).mg = s.mg := rfl
@[simp] theorem State.ev_present (p : Nat) (bytes : List Byte) : (s.present p bytes).ev = s.ev := rfl
@[simp] theorem State.stimuli_present (p : Nat) (bytes : List Byte) : (s.present p bytes).stimuli = s.stimuli := rfl
@[simp] theorem State.crcAcc_present (p : Nat) (bytes : List Byte) (k : Codec) : (s.present p bytes).crcAcc k = s.crcAcc k := by cases k <;> rfl
@[simp] theorem State.slotAt_present (p : Nat) (bytes : List Byte) (c : Byte) : (s.present p bytes).slotAt c = s.slotAt c := rfl

@[simp] theorem State.mem_returnStatus (st : MgStatus) : (s.returnStatus st).mem = s.mem := rfl
@[simp] theorem State.slot_returnStatus (st : MgStatus) : (s.returnStatus st).slot = s.slot := rfl
@[simp] theorem State.ser_returnStatus (st : MgStatus) : (s.returnStatus st).ser = s.ser := rfl
@[simp] theorem State.pending_returnStatus (st : MgStatus) : (s.returnStatus st).pending = s.pending := rfl
@[simp] theorem State.crcPort_returnStatus (st : MgStatus) : (s.returnStatus st).crcPort = s.crcPort := rfl
@[simp] theorem State.crcSer_returnStatus (st : MgStatus) : (s.returnStatus st).crcSer = s.crcSer := rfl
@[simp] theorem State.result_returnStatus (st : MgStatus) : (s.returnStatus st).result = s.result := rfl
@[simp] theorem State.tx_returnStatus (st : MgStatus) : (s.returnStatus st).tx = s.tx := rfl
@[simp] theorem State.mg_returnStatus (st : MgStatus) : (s.returnStatus st).mg = s.mg ++ [st] := rfl
@[simp] theorem State.ev_returnStatus (st : MgStatus) : (s.returnStatus st).ev = s.ev := rfl
@[simp] theorem State.stimuli_returnStatus (st : MgStatus) : (s.returnStatus st).stimuli = s.stimuli := rfl
@[simp] theorem State.crcAcc_returnStatus (st : MgStatus) (k : Codec) : (s.returnStatus st).crcAcc k = s.crcAcc k := by cases k <;> rfl
@[simp] theorem State.slotAt_returnStatus (st : MgStatus) (c : Byte) : (s.returnStatus st).slotAt c = s.slotAt c := rfl

@[simp] theorem State.mem_emit (e : Event) : (s.emit e).mem = s.mem := rfl
@[simp] theorem State.slot_emit (e : Event) : (s.emit e).slot = s.slot := rfl
@[simp] theorem State.ser_emit (e : Event) : (s.emit e).ser = s.ser := rfl
@[simp] theorem State.pending_emit (e : Event) : (s.emit e).pending = s.pending := rfl
@[simp] theorem State.crcPort_emit (e : Event) : (s.emit e).crcPort = s.crcPort := rfl
@[simp] theorem State.crcSer_emit (e : Event) : (s.emit e).crcSer = s.crcSer := rfl
@[simp] theorem State.result_emit (e : Event) : (s.emit e).result = s.result := rfl
@[simp] theorem State.tx_emit (e : Event) : (s.emit e).tx = s.tx := rfl
@[simp] theorem State.mg_emit (e : Event) : (s.emit e).mg = s.mg := rfl
@[simp] theorem State.ev_emit (e : Event) : (s.emit e).ev = s.ev ++ [e] := rfl
@[simp] theorem State.stimuli_emit (e : Event) : (s.emit e).stimuli = s.stimuli := rfl
@[simp] theorem State.crcAcc_emit (e : Event) (k : Codec) : (s.emit e).crcAcc k = s.crcAcc k := by cases k <;> rfl
@[simp] theorem State.slotAt_emit (e : Event) (c : Byte) : (s.emit e).slotAt c = s.slotAt c := rfl

@[simp] theorem State.mem_setStimuli (l : List Stimulus) : (s.setStimuli l).mem = s.mem := rfl
@[simp] theorem State.slot_setStimuli (l : List Stimulus) : (s.setStimuli l).slot = s.slot := rfl
@[simp] theorem State.ser_setStimuli (l : List Stimulus) : (s.setStimuli l).ser = s.ser := rfl
@[simp] theorem State.pending_setStimuli (l : List Stimulus) : (s.setStimuli l).pending = s.pending := rfl
@[simp] theorem State.crcPort_setStimuli (l : List Stimulus) : (s.setStimuli l).crcPort = s.crcPort := rfl
@[simp] theorem State.crcSer_setStimuli (l : List Stimulus) : (s.setStimuli l).crcSer = s.crcSer := rfl
@[simp] theorem State.result_setStimuli (l : List Stimulus) : (s.setStimuli l).result = s.result := rfl
@[simp] theorem State.tx_setStimuli (l : List Stimulus) : (s.setStimuli l).tx = s.tx := rfl
@[simp] theorem State.mg_setStimuli (l : List Stimulus) : (s.setStimuli l).mg = s.mg := rfl
@[simp] theorem State.ev_setStimuli (l : List Stimulus) : (s.setStimuli l).ev = s.ev := rfl
@[simp] theorem State.stimuli_setStimuli (l : List Stimulus) : (s.setStimuli l).stimuli = l := rfl
@[simp] theorem State.crcAcc_setStimuli (l : List Stimulus) (k : Codec) : (s.setStimuli l).crcAcc k = s.crcAcc k := by cases k <;> rfl
@[simp] theorem State.slotAt_setStimuli (l : List Stimulus) (c : Byte) : (s.setStimuli l).slotAt c = s.slotAt c := rfl

theorem State.crcAcc_setCrcAcc (k j : Codec) (w : Word) :
    (s.setCrcAcc k w).crcAcc j = if j = k then w else s.crcAcc j := by
  cases k <;> cases j <;> simp [State.setCrcAcc, State.crcAcc, Cells.read_write]

@[simp] theorem State.crcPort_setCrcAcc_serializer (w : Word) : (s.setCrcAcc .serializer w).crcPort = s.crcPort := rfl

@[simp] theorem State.crcSer_setCrcAcc_serializer (w : Word) : (s.setCrcAcc .serializer w).crcSer = w := rfl

@[simp] theorem State.crcSer_setCrcAcc_port (p : Nat) (w : Word) : (s.setCrcAcc (.port p) w).crcSer = s.crcSer := rfl

theorem State.slotAt_setSlot (fc c : Byte) (h : HandlerId) :
    (s.setSlot fc h).slotAt c = if c = fc then h else s.slotAt c := by
  unfold State.slotAt State.setSlot
  rw [Vector.getElem_set]
  by_cases hc : c = fc
  · simp [hc]
  · have : fc.toNat ≠ c.toNat := fun e => hc (BitVec.eq_of_toNat_eq e.symm)
    simp [hc, this]

/-- The default bindings, slot by slot (R14). -/
theorem State.slotAt_reset (fc : Byte) : State.reset.slotAt fc = defaultBinding fc.toNat := by
  simp [State.slotAt, State.reset, defaultSlots]

@[simp] theorem andThen_next (k : State → Host.Outcome State Fault Refusal) : andThen (.next s) k = k s := rfl

/-- Putting back what comes next changes nothing. -/
@[simp] theorem State.setStimuli_self (s : State) : s.setStimuli s.stimuli = s := rfl

end Sys2Proof.Machine
end

