-- ==== Sys2Proof/Laws/Ops.lean ====
section
/-! SUPPORT. What each shared operation over the state can do, said once. -/

namespace Sys2Proof.Machine

variable (s : State)

/-! ### Outputs -/

section respond

variable (p : Nat) (r : Frame)

@[simp] theorem respondOn_mem : (respondOn p r s).mem = s.mem := by simp [respondOn, stampOn]
@[simp] theorem respondOn_slot : (respondOn p r s).slot = s.slot := by simp [respondOn, stampOn]
@[simp] theorem respondOn_ser : (respondOn p r s).ser = s.ser := by simp [respondOn, stampOn]
@[simp] theorem respondOn_pending : (respondOn p r s).pending = s.pending := by simp [respondOn, stampOn]
@[simp] theorem respondOn_crcPort : (respondOn p r s).crcPort = s.crcPort := by simp [respondOn, stampOn]
@[simp] theorem respondOn_crcSer : (respondOn p r s).crcSer = crc16 (frameBody r) := by simp [respondOn, stampOn]
@[simp] theorem respondOn_result : (respondOn p r s).result = s.result := by simp [respondOn, stampOn]
@[simp] theorem respondOn_tx : (respondOn p r s).tx = s.tx ++ [⟨p, encodeFrame r⟩] := by simp [respondOn, stampOn]
@[simp] theorem respondOn_mg : (respondOn p r s).mg = s.mg := by simp [respondOn, stampOn]
@[simp] theorem respondOn_ev : (respondOn p r s).ev = s.ev := by simp [respondOn, stampOn]
@[simp] theorem respondOn_stimuli : (respondOn p r s).stimuli = s.stimuli := by simp [respondOn, stampOn]

end respond

/-- Encode is the packet of the frame's triple (R51, R93). -/
theorem encodeFrame_eq_packetOf (f : Frame) : encodeFrame f = packetOf f.deviceId f.functionCode f.payload := rfl

/-! ### Processing a request -/

/-- A unicast (R128): the store is the handler's, and exactly one response goes to the requester's port: the handler's payload
on `Success`, else the exception response. -/
theorem unicastOn_eq (p : Nat) (f : Frame) :
    ∃ r : Frame, unicastOn p f s =
        respondOn p r (s.setMem (s.dispatch f.functionCode f.deviceId.toNat f.payload).mem) ∧
      encodeFrame r =
        if (s.dispatch f.functionCode f.deviceId.toNat f.payload).exc = .success then
          packetOf f.deviceId f.functionCode (s.dispatch f.functionCode f.deviceId.toNat f.payload).payload
        else
          packetOf f.deviceId (f.functionCode ||| 0x80#8)
            [excCode (s.dispatch f.functionCode f.deviceId.toNat f.payload).exc] := by
  by_cases h : (s.dispatch f.functionCode f.deviceId.toNat f.payload).exc = .success
  · exact ⟨{ copyFrame f with payload := (s.dispatch f.functionCode f.deviceId.toNat f.payload).payload },
      by simp [unicastOn, h], by simp only [h, ↓reduceIte]; rfl⟩
  · exact ⟨setException { copyFrame f with payload := (s.dispatch f.functionCode f.deviceId.toNat f.payload).payload }
      (s.dispatch f.functionCode f.deviceId.toNat f.payload).exc, by simp [unicastOn, h, takeException],
      by simp only [h, ↓reduceIte]; rfl⟩

/-- The one way a broadcast ends (R125): only the store may differ. -/
theorem broadcastOn_eq (f : Frame) :
    broadcastOn f s = s.setMem (s.mem.registered.foldl
      (fun m d => (runHandler (s.slotAt f.functionCode) m d f.payload).mem) s.mem) := rfl

/-- Processing does not look at the trailer of the Frame. -/
theorem processRequest_congr (p : Nat) {f g : Frame} (hd : f.deviceId = g.deviceId) (hc : f.functionCode = g.functionCode)
    (hp : f.payload = g.payload) : processRequest p f s = processRequest p g s := by
  obtain ⟨d, c, pl, t⟩ := f
  obtain ⟨d', c', pl', t'⟩ := g
  simp only at hd hc hp
  subst hd hc hp
  unfold processRequest
  split
  · rfl
  · split
    · unfold unicastOn
      simp only [copyFrame]
      split <;> rfl
    · rfl

/-- What processing a request can do (R124). -/
theorem processRequest_cases (p : Nat) (f : Frame) :
    (f.deviceId = Config.devBroadcast ∧ processRequest p f s = broadcastOn f s) ∨
      (f.deviceId ≠ Config.devBroadcast ∧ s.mem.devValid f.deviceId.toNat = true ∧
        processRequest p f s = unicastOn p f s) ∨
      (f.deviceId ≠ Config.devBroadcast ∧ s.mem.devValid f.deviceId.toNat = false ∧
        processRequest p f s = s.emit (.unknownDevice p f.deviceId)) := by
  unfold processRequest
  split
  · exact .inl ⟨‹_›, rfl⟩
  · split
    · exact .inr (.inl ⟨‹_›, ‹_›, rfl⟩)
    · exact .inr (.inr ⟨‹_›, Bool.eq_false_of_not_eq_true ‹_›, rfl⟩)

/-- A store predicate that every handler keeps is kept by the run of handlers of a broadcast. -/
theorem broadcast_keeps {P : Memory → Prop} {h : HandlerId} {payload : List Byte}
    (hP : ∀ m d, P m → P (runHandler h m d payload).mem) {m : Memory} (hm : P m) (l : List Nat) :
    P (l.foldl (fun m d => (runHandler h m d payload).mem) m) := by
  induction l generalizing m with
  | nil => exact hm
  | cons d l ih => exact ih (hP m d hm)

theorem processRequest_wf (p : Nat) (f : Frame) (h : s.mem.wf) : (processRequest p f s).mem.wf := by
  obtain ⟨-, e⟩ | ⟨-, -, e⟩ | ⟨-, -, e⟩ := processRequest_cases s p f <;> rw [e]
  · rw [broadcastOn_eq]
    exact broadcast_keeps (P := Memory.wf) (fun m d hm => wf_runHandler _ hm d _) h _
  · obtain ⟨r, e, -⟩ := unicastOn_eq s p f
    rw [e]
    simpa [State.dispatch] using wf_runHandler _ h _ _
  · simpa using h

theorem processRequest_devValid (p : Nat) (f : Frame) (e : Nat) :
    (processRequest p f s).mem.devValid e = s.mem.devValid e := by
  obtain ⟨-, h⟩ | ⟨-, -, h⟩ | ⟨-, -, h⟩ := processRequest_cases s p f <;> rw [h]
  · rw [broadcastOn_eq]
    exact broadcast_keeps (P := fun m => m.devValid e = s.mem.devValid e)
      (fun m d hm => (devValid_runHandler _ m d _ e).trans hm) rfl _
  · obtain ⟨r, h, -⟩ := unicastOn_eq s p f
    rw [h]
    simpa [State.dispatch] using devValid_runHandler ..
  · simp

section process

variable (p : Nat) (f : Frame)

@[simp] theorem processRequest_slot : (processRequest p f s).slot = s.slot := by
  obtain ⟨-, h⟩ | ⟨-, -, h⟩ | ⟨-, -, h⟩ := processRequest_cases s p f <;> rw [h]
  · simp [broadcastOn_eq]
  · obtain ⟨r, h, -⟩ := unicastOn_eq s p f; simp [h]
  · simp
@[simp] theorem processRequest_ser : (processRequest p f s).ser = s.ser := by
  obtain ⟨-, h⟩ | ⟨-, -, h⟩ | ⟨-, -, h⟩ := processRequest_cases s p f <;> rw [h]
  · simp [broadcastOn_eq]
  · obtain ⟨r, h, -⟩ := unicastOn_eq s p f; simp [h]
  · simp
@[simp] theorem processRequest_pending : (processRequest p f s).pending = s.pending := by
  obtain ⟨-, h⟩ | ⟨-, -, h⟩ | ⟨-, -, h⟩ := processRequest_cases s p f <;> rw [h]
  · simp [broadcastOn_eq]
  · obtain ⟨r, h, -⟩ := unicastOn_eq s p f; simp [h]
  · simp
@[simp] theorem processRequest_crcPort : (processRequest p f s).crcPort = s.crcPort := by
  obtain ⟨-, h⟩ | ⟨-, -, h⟩ | ⟨-, -, h⟩ := processRequest_cases s p f <;> rw [h]
  · simp [broadcastOn_eq]
  · obtain ⟨r, h, -⟩ := unicastOn_eq s p f; simp [h]
  · simp
@[simp] theorem processRequest_result : (processRequest p f s).result = s.result := by
  obtain ⟨-, h⟩ | ⟨-, -, h⟩ | ⟨-, -, h⟩ := processRequest_cases s p f <;> rw [h]
  · simp [broadcastOn_eq]
  · obtain ⟨r, h, -⟩ := unicastOn_eq s p f; simp [h]
  · simp
@[simp] theorem processRequest_mg : (processRequest p f s).mg = s.mg := by
  obtain ⟨-, h⟩ | ⟨-, -, h⟩ | ⟨-, -, h⟩ := processRequest_cases s p f <;> rw [h]
  · simp [broadcastOn_eq]
  · obtain ⟨r, h, -⟩ := unicastOn_eq s p f; simp [h]
  · simp
@[simp] theorem processRequest_stimuli : (processRequest p f s).stimuli = s.stimuli := by
  obtain ⟨-, h⟩ | ⟨-, -, h⟩ | ⟨-, -, h⟩ := processRequest_cases s p f <;> rw [h]
  · simp [broadcastOn_eq]
  · obtain ⟨r, h, -⟩ := unicastOn_eq s p f; simp [h]
  · simp

end process

/-! ### Device lifecycle -/

theorem idInRange_eq_true_iff (id : Byte) : idInRange id = true ↔ 1 ≤ id.toNat ∧ id.toNat ≤ 247 := by
  simp only [idInRange, Bool.and_eq_true, decide_eq_true_eq]
  rfl

/-- What CreateDevice can do (R130). -/
theorem createDeviceOn_cases (id : Byte) :
    (createDeviceOn id s = s.returnStatus .outOfRange ∧ ¬ (1 ≤ id.toNat ∧ id.toNat ≤ 247)) ∨
      (createDeviceOn id s = s.returnStatus .alreadyExists ∧ (1 ≤ id.toNat ∧ id.toNat ≤ 247) ∧
        s.mem.devValid id.toNat = true) ∨
      (createDeviceOn id s = (s.setMem (s.mem.putDevice id.toNat Device.zero)).returnStatus .ok ∧
        (1 ≤ id.toNat ∧ id.toNat ≤ 247) ∧ s.mem.devValid id.toNat = false) := by
  rw [← idInRange_eq_true_iff]
  unfold createDeviceOn
  split
  · exact .inl ⟨rfl, by simp [*]⟩
  · split
    · exact .inr (.inl ⟨rfl, Bool.eq_true_of_not_eq_false ‹_›, ‹_›⟩)
    · exact .inr (.inr ⟨rfl, Bool.eq_true_of_not_eq_false ‹_›, Bool.eq_false_of_not_eq_true ‹_›⟩)

/-- What RemoveDevice can do (R131). -/
theorem removeDeviceOn_cases (id : Byte) :
    (removeDeviceOn id s = s.returnStatus .outOfRange ∧ ¬ (1 ≤ id.toNat ∧ id.toNat ≤ 247)) ∨
      (removeDeviceOn id s = (s.setMem (s.mem.dropDevice id.toNat)).returnStatus .ok ∧
        (1 ≤ id.toNat ∧ id.toNat ≤ 247) ∧ s.mem.devValid id.toNat = true) ∨
      (removeDeviceOn id s = s.returnStatus .notFound ∧ (1 ≤ id.toNat ∧ id.toNat ≤ 247) ∧
        s.mem.devValid id.toNat = false) := by
  rw [← idInRange_eq_true_iff]
  unfold removeDeviceOn
  split
  · exact .inl ⟨rfl, by simp [*]⟩
  · split
    · exact .inr (.inl ⟨rfl, Bool.eq_true_of_not_eq_false ‹_›, ‹_›⟩)
    · exact .inr (.inr ⟨rfl, Bool.eq_true_of_not_eq_false ‹_›, Bool.eq_false_of_not_eq_true ‹_›⟩)

theorem processItem_wf (it : Item) (h : s.mem.wf) : (processItem it s).mem.wf := by
  match it with
  | .req p f => exact processRequest_wf s p f h
  | .mgmt (.create id) =>
    obtain ⟨e, -⟩ | ⟨e, -⟩ | ⟨e, hr, -⟩ := createDeviceOn_cases s id <;> simp only [processItem, e]
    · simpa using h
    · simpa using h
    · simpa using Memory.wf_putDevice h hr Device.wf_zero
  | .mgmt (.remove id) =>
    obtain ⟨e, -⟩ | ⟨e, -⟩ | ⟨e, -⟩ := removeDeviceOn_cases s id <;> simp only [processItem, e]
    · simpa using h
    · simpa using Memory.wf_dropDevice h _
    · simpa using h

/-- Processing an item touches neither the dispatch table, nor the arbiter's state, nor the ports' accumulators, nor what
comes next. -/
theorem processItem_frame (it : Item) :
    (processItem it s).slot = s.slot ∧ (processItem it s).ser = s.ser ∧ (processItem it s).pending = s.pending ∧
      (processItem it s).crcPort = s.crcPort ∧ (processItem it s).result = s.result ∧
      (processItem it s).stimuli = s.stimuli := by
  match it with
  | .req p f => simp [processItem]
  | .mgmt (.create id) =>
    obtain ⟨e, -⟩ | ⟨e, -⟩ | ⟨e, -⟩ := createDeviceOn_cases s id <;> simp [processItem, e]
  | .mgmt (.remove id) =>
    obtain ⟨e, -⟩ | ⟨e, -⟩ | ⟨e, -⟩ := removeDeviceOn_cases s id <;> simp [processItem, e]

/-! ### The codec and the arbiter -/

/-- What Decode on a port can do to the state (R91, R143): its own accumulator, the returned value and one event. -/
theorem decodeOn_frame (p : Nat) (bytes : List Byte) :
    (decodeOn p bytes s).mem = s.mem ∧ (decodeOn p bytes s).slot = s.slot ∧ (decodeOn p bytes s).ser = s.ser ∧
      (decodeOn p bytes s).pending = s.pending ∧ (decodeOn p bytes s).crcSer = s.crcSer ∧
      (decodeOn p bytes s).tx = s.tx ∧ (decodeOn p bytes s).mg = s.mg ∧
      (decodeOn p bytes s).stimuli = s.stimuli ∧ (decodeOn p bytes s).result = some (.decoded (decodePacket bytes)) := by
  unfold decodeOn
  cases decodePacket bytes <;> simp

/-- What Accept can do (R122). -/
theorem acceptNext_cases :
    (∃ it rest, s.ser = .idle ∧ s.pending = it :: rest ∧ acceptNext s = (s.setPending rest).setSer (.processing it)) ∨
      ((s.ser ≠ .idle ∨ s.pending = []) ∧ acceptNext s = s) := by
  unfold acceptNext
  split
  · exact .inl ⟨_, _, ‹_›, ‹_›, rfl⟩
  · exact .inr ⟨.inr ‹_›, rfl⟩
  · exact .inr ⟨.inl (by simp [*]), rfl⟩

/-! ### What comes next plays no part -/

/-- Processing an item neither reads nor changes what comes next. -/
theorem processItem_setStimuli (it : Item) (l : List Stimulus) :
    processItem it (s.setStimuli l) = (processItem it s).setStimuli l := by
  have unicast (p : Nat) (f : Frame) : unicastOn p f (s.setStimuli l) = (unicastOn p f s).setStimuli l := by
    have hd : (s.setStimuli l).dispatch f.functionCode f.deviceId.toNat f.payload =
      s.dispatch f.functionCode f.deviceId.toNat f.payload := rfl
    simp only [unicastOn, hd]
    split <;> rfl
  match it with
  | .req p f =>
    have hm : (s.setStimuli l).mem = s.mem := rfl
    simp only [processItem, processRequest, hm, unicast]
    split
    · rfl
    · split <;> rfl
  | .mgmt (.create id) =>
    obtain ⟨e, h⟩ | ⟨e, h⟩ | ⟨e, h⟩ := createDeviceOn_cases s id <;>
      obtain ⟨e', h'⟩ | ⟨e', h'⟩ | ⟨e', h'⟩ := createDeviceOn_cases (s.setStimuli l) id <;> simp_all [processItem] <;> rfl
  | .mgmt (.remove id) =>
    obtain ⟨e, h⟩ | ⟨e, h⟩ | ⟨e, h⟩ := removeDeviceOn_cases s id <;>
      obtain ⟨e', h'⟩ | ⟨e', h'⟩ | ⟨e', h'⟩ := removeDeviceOn_cases (s.setStimuli l) id <;> simp_all [processItem] <;> rfl

/-- Accept neither reads nor changes what comes next. -/
theorem acceptNext_setStimuli (l : List Stimulus) : acceptNext (s.setStimuli l) = (acceptNext s).setStimuli l := by
  have hs : (s.setStimuli l).ser = s.ser := rfl
  have hp : (s.setStimuli l).pending = s.pending := rfl
  simp only [acceptNext, hs, hp]
  split <;> rfl

end Sys2Proof.Machine
end

