-- ==== Sys2Proof/Laws/PerInstr.lean ====
section
/-! SUPPORT. Statements about every instruction as syntax, one lemma for each constructor: family `RowPattern` holds each
constructor against the pattern that spec/opcode_table.json gives its row. -/

namespace Sys2Proof.Laws

open Sys2Proof

/-- What spec/opcode_table.json gives a row to be selected by. -/
inductive Row where
  | functionCode (mtch mask : Byte)     -- format A, B, C or RAW: `(fc & mask) == match`
  | management (op : BitVec 2)          -- format MG: `mg_op`
  | internal                            -- format INTERNAL: "not selected by any bit pattern"
deriving DecidableEq, Repr

/-- The row of each constructor, copied from spec/opcode_table.json. -/
def rowOf : Instr → Row
  | .rc _ _ _ => .functionCode 0x01#8 0xFF#8
  | .rdi _ _ _ => .functionCode 0x02#8 0xFF#8
  | .rhr _ _ _ => .functionCode 0x03#8 0xFF#8
  | .rir _ _ _ => .functionCode 0x04#8 0xFF#8
  | .wsc _ _ _ => .functionCode 0x05#8 0xFF#8
  | .wsr _ _ _ => .functionCode 0x06#8 0xFF#8
  | .wmc _ _ _ => .functionCode 0x0F#8 0xFF#8
  | .wmr _ _ _ => .functionCode 0x10#8 0xFF#8
  | .unbound00 _ _ _ => .functionCode 0x00#8 0xFF#8
  | .unbound07 _ _ _ => .functionCode 0x07#8 0xFF#8
  | .unbound08 _ _ _ _ => .functionCode 0x08#8 0xFC#8
  | .unbound0C _ _ _ _ => .functionCode 0x0C#8 0xFE#8
  | .unbound0E _ _ _ => .functionCode 0x0E#8 0xFF#8
  | .unbound11 _ _ _ => .functionCode 0x11#8 0xFF#8
  | .unbound12 _ _ _ _ => .functionCode 0x12#8 0xFE#8
  | .unbound14 _ _ _ _ => .functionCode 0x14#8 0xFC#8
  | .unbound18 _ _ _ _ => .functionCode 0x18#8 0xF8#8
  | .unbound20 _ _ _ _ => .functionCode 0x20#8 0xE0#8
  | .unbound40 _ _ _ _ => .functionCode 0x40#8 0xC0#8
  | .unbound80 _ _ _ _ => .functionCode 0x80#8 0x80#8
  | .createdev _ => .management 0#2
  | .removedev _ => .management 1#2
  | .reghandler _ _ => .management 2#2
  | .mgReserved => .management 3#2
  | .crc16 _ => .internal
  | .crcInit _ => .internal
  | .crcUpdate _ _ => .internal
  | .crcRead _ => .internal
  | .decode _ _ => .internal
  | .encode _ => .internal
  | .copy _ => .internal
  | .setexc _ _ => .internal
  | .submit _ _ => .internal
  | .accept => .internal
  | .complete => .internal
  | .broadcast _ => .internal
  | .dropunknown _ _ => .internal
  | .unicast _ _ => .internal
  | .respond _ _ => .internal

namespace RowPattern

/-- The encoding of an instruction is one that its row of the opcode table selects: a packet whose byte 1 matches the row's
pattern, a tuple with the row's `mg_op`, or nothing. -/
def Statement (i : Instr) : Prop :=
  match rowOf i with
  | .functionCode mtch mask =>
    ∃ v p bytes fc, i.request? = some v ∧ encode i = some (.packet p bytes) ∧ bytes[1]? = some fc ∧ fc = v.fc ∧
      fc &&& mask = mtch
  | .management op => ∃ id fc h, encode i = some (.command op id fc h)
  | .internal => encode i = none

/-- A request whose function code matches the row's pattern. -/
theorem of_request {i : Instr} {p : Nat} {dev fc mtch mask : Byte} {payload : List Byte}
    (h : i.request? = some ⟨p, dev, fc, payload⟩) (hr : rowOf i = .functionCode mtch mask) (hm : fc &&& mask = mtch) :
    Statement i := by
  unfold Statement
  rw [hr]
  exact ⟨_, p, packetOf dev fc payload, fc, h, by simp [Sys2Proof.encode, h], by simp [packetOf], rfl, hm⟩

theorem rc (p : Nat) (dev : Byte) (payload : List Byte) : Statement (.rc p dev payload) := of_request rfl rfl (by decide)
theorem rdi (p : Nat) (dev : Byte) (payload : List Byte) : Statement (.rdi p dev payload) := of_request rfl rfl (by decide)
theorem rhr (p : Nat) (dev : Byte) (payload : List Byte) : Statement (.rhr p dev payload) := of_request rfl rfl (by decide)
theorem rir (p : Nat) (dev : Byte) (payload : List Byte) : Statement (.rir p dev payload) := of_request rfl rfl (by decide)
theorem wsc (p : Nat) (dev : Byte) (payload : List Byte) : Statement (.wsc p dev payload) := of_request rfl rfl (by decide)
theorem wsr (p : Nat) (dev : Byte) (payload : List Byte) : Statement (.wsr p dev payload) := of_request rfl rfl (by decide)
theorem wmc (p : Nat) (dev : Byte) (payload : List Byte) : Statement (.wmc p dev payload) := of_request rfl rfl (by decide)
theorem wmr (p : Nat) (dev : Byte) (payload : List Byte) : Statement (.wmr p dev payload) := of_request rfl rfl (by decide)
theorem unbound00 (p : Nat) (dev : Byte) (payload : List Byte) : Statement (.unbound00 p dev payload) :=
  of_request rfl rfl (by decide)
theorem unbound07 (p : Nat) (dev : Byte) (payload : List Byte) : Statement (.unbound07 p dev payload) :=
  of_request rfl rfl (by decide)
theorem unbound08 (p : Nat) (dev : Byte) (low : BitVec 2) (payload : List Byte) :
    Statement (.unbound08 p dev low payload) := of_request rfl rfl (by revert low; decide)
theorem unbound0C (p : Nat) (dev : Byte) (low : BitVec 1) (payload : List Byte) :
    Statement (.unbound0C p dev low payload) := of_request rfl rfl (by revert low; decide)
theorem unbound0E (p : Nat) (dev : Byte) (payload : List Byte) : Statement (.unbound0E p dev payload) :=
  of_request rfl rfl (by decide)
theorem unbound11 (p : Nat) (dev : Byte) (payload : List Byte) : Statement (.unbound11 p dev payload) :=
  of_request rfl rfl (by decide)
theorem unbound12 (p : Nat) (dev : Byte) (low : BitVec 1) (payload : List Byte) :
    Statement (.unbound12 p dev low payload) := of_request rfl rfl (by revert low; decide)
theorem unbound14 (p : Nat) (dev : Byte) (low : BitVec 2) (payload : List Byte) :
    Statement (.unbound14 p dev low payload) := of_request rfl rfl (by revert low; decide)
theorem unbound18 (p : Nat) (dev : Byte) (low : BitVec 3) (payload : List Byte) :
    Statement (.unbound18 p dev low payload) := of_request rfl rfl (by revert low; decide)
theorem unbound20 (p : Nat) (dev : Byte) (low : BitVec 5) (payload : List Byte) :
    Statement (.unbound20 p dev low payload) := of_request rfl rfl (by revert low; decide)
theorem unbound40 (p : Nat) (dev : Byte) (low : BitVec 6) (payload : List Byte) :
    Statement (.unbound40 p dev low payload) := of_request rfl rfl (by revert low; decide)
theorem unbound80 (p : Nat) (dev : Byte) (low : BitVec 7) (payload : List Byte) :
    Statement (.unbound80 p dev low payload) := of_request rfl rfl (by revert low; decide +kernel)
theorem createdev (id : Byte) : Statement (.createdev id) := ⟨_, _, _, rfl⟩
theorem removedev (id : Byte) : Statement (.removedev id) := ⟨_, _, _, rfl⟩
theorem reghandler (fc : Byte) (h : HandlerId) : Statement (.reghandler fc h) := ⟨_, _, _, rfl⟩
theorem mgReserved : Statement .mgReserved := ⟨_, _, _, rfl⟩
theorem crc16 (bytes : List Byte) : Statement (.crc16 bytes) := rfl
theorem crcInit (k : Codec) : Statement (.crcInit k) := rfl
theorem crcUpdate (k : Codec) (b : Byte) : Statement (.crcUpdate k b) := rfl
theorem crcRead (k : Codec) : Statement (.crcRead k) := rfl
theorem decode (p : Nat) (bytes : List Byte) : Statement (.decode p bytes) := rfl
theorem encode (f : Frame) : Statement (.encode f) := rfl
theorem copy (f : Frame) : Statement (.copy f) := rfl
theorem setexc (f : Frame) (e : Exception) : Statement (.setexc f e) := rfl
theorem submit (p : Nat) (f : Frame) : Statement (.submit p f) := rfl
theorem accept : Statement .accept := rfl
theorem complete : Statement .complete := rfl
theorem broadcast (f : Frame) : Statement (.broadcast f) := rfl
theorem dropunknown (p : Nat) (f : Frame) : Statement (.dropunknown p f) := rfl
theorem unicast (p : Nat) (f : Frame) : Statement (.unicast p f) := rfl
theorem respond (p : Nat) (r : Frame) : Statement (.respond p r) := rfl

end RowPattern

end Sys2Proof.Laws
end

