-- ==== Sys2Proof/Laws/Step.lean ====
section
/-! SUPPORT. What a step can do, said once. -/

namespace Sys2Proof.Machine

/-- A request instruction executes as the processing of its Frame (R124). -/
theorem exec_request {i : Instr} {v : RequestView} (h : i.request? = some v) (s : State) :
    exec i s = .next (processRequest v.port (requestFrame v.dev v.fc v.payload) s) := by
  cases i <;> simp only [Instr.request?, reduceCtorEq, Option.some.injEq] at h <;> subst h <;> rfl

/-- The instruction of an item executes as the processing of the item (R18, R124). -/
theorem exec_instrOfItem (it : Item) (s : State) : exec (instrOfItem it) s = .next (processItem it s) := by
  match it with
  | .req p f =>
    rw [instrOfItem, exec_request (request?_instrOfFrame p f)]
    exact congrArg _ (processRequest_congr s p rfl rfl rfl)
  | .mgmt (.create id) => rfl
  | .mgmt (.remove id) => rfl

/-- The Serializer's move while an item is in flight (R123). -/
theorem serve_of_processing {s : State} {it : Item} (h : s.ser = .processing it) :
    serve s = .next (returnToIdle (processItem it s)) := by
  simp only [serve, h, exec_instrOfItem]
  rfl

/-- The Serializer's move in `IDLE` (R122). -/
theorem serve_of_idle {s : State} (h : s.ser = .idle) : serve s = .next (acceptNext s) := by
  simp only [serve, h]
  rfl

/-- The Serializer's move (R122, R123). -/
theorem serve_eq (s : State) :
    (∃ it, s.ser = .processing it ∧ serve s = .next (returnToIdle (processItem it s))) ∨
      (s.ser = .idle ∧ serve s = .next (acceptNext s)) := by
  cases h : s.ser with
  | processing it => exact .inl ⟨it, rfl, serve_of_processing h⟩
  | idle => exact .inr ⟨rfl, serve_of_idle h⟩

/-- The Serializer's move neither reads nor changes what comes next. -/
theorem serve_setStimuli {s t : State} (l : List Stimulus) (h : serve s = .next t) :
    serve (s.setStimuli l) = .next (t.setStimuli l) := by
  cases hs : s.ser with
  | processing it =>
    cases (serve_of_processing hs).symm.trans h
    rw [serve_of_processing (s := s.setStimuli l) hs, processItem_setStimuli]
    rfl
  | idle =>
    cases (serve_of_idle hs).symm.trans h
    rw [serve_of_idle (s := s.setStimuli l) hs, acceptNext_setStimuli]

/-- What meeting a stimulus can do. -/
theorem perform_eq (x : Stimulus) (s : State) :
    (∃ p bytes f, x = .rx p bytes ∧ decodePacket bytes = .frame f ∧
        perform x s = .next (submitOn p f (decodeOn p bytes s))) ∨
      (∃ p bytes, x = .rx p bytes ∧ (∀ f, decodePacket bytes ≠ .frame f) ∧ perform x s = .next (decodeOn p bytes s)) ∨
      (∃ id fc h, x = .mg 0#2 id fc h ∧ perform x s = .next (enqueue (.mgmt (.create id)) s)) ∨
      (∃ id fc h, x = .mg 1#2 id fc h ∧ perform x s = .next (enqueue (.mgmt (.remove id)) s)) ∨
      (∃ id fc h, x = .mg 2#2 id fc h ∧ perform x s = execReghandler fc h s) ∨
      (∃ id fc h, x = .mg 3#2 id fc h ∧ perform x s = .refused .reservedManagementOperation) ∨
      (x = .serializer ∧ perform x s = serve s) ∨
      (∃ k r, x = .crc k r ∧ perform x s = exec (instrOfCrc k r) s) ∨
      (x = .rst ∧ perform x s = .next (resetBlock s)) := by
  cases x with
  | rx p bytes =>
    simp only [perform, receive]
    cases hd : decodePacket bytes with
    | frame f => exact .inl ⟨p, bytes, f, rfl, hd, rfl⟩
    | shortFrame => exact .inr (.inl ⟨p, bytes, rfl, by simp [hd], rfl⟩)
    | checksumMismatch => exact .inr (.inl ⟨p, bytes, rfl, by simp [hd], rfl⟩)
  | mg op id fc h =>
    have : op = 0#2 ∨ op = 1#2 ∨ op = 2#2 ∨ op = 3#2 := by revert op; decide
    rcases this with rfl | rfl | rfl | rfl
    · exact .inr (.inr (.inl ⟨id, fc, h, rfl, rfl⟩))
    · exact .inr (.inr (.inr (.inl ⟨id, fc, h, rfl, rfl⟩)))
    · exact .inr (.inr (.inr (.inr (.inl ⟨id, fc, h, rfl, rfl⟩))))
    · exact .inr (.inr (.inr (.inr (.inr (.inl ⟨id, fc, h, rfl, rfl⟩)))))
  | serializer => exact .inr (.inr (.inr (.inr (.inr (.inr (.inl ⟨rfl, rfl⟩))))))
  | crc k r => exact .inr (.inr (.inr (.inr (.inr (.inr (.inr (.inl ⟨k, r, rfl, rfl⟩)))))))
  | rst => exact .inr (.inr (.inr (.inr (.inr (.inr (.inr (.inr ⟨rfl, rfl⟩)))))))

/-- One step: the next stimulus if it is ready, else the Serializer's move. -/
theorem step_cases (s : State) :
    (∃ x rest, s.stimuli = x :: rest ∧ ready x s = true ∧ step s = perform x (s.setStimuli rest)) ∨
      ((s.stimuli = [] ∨ ∃ x rest, s.stimuli = x :: rest ∧ ready x s = false) ∧ step s = serve s) := by
  unfold step move
  split
  · exact .inr ⟨.inl ‹_›, rfl⟩
  · split
    · exact .inl ⟨_, _, ‹_›, ‹_›, rfl⟩
    · exact .inr ⟨.inr ⟨_, _, ‹_›, Bool.eq_false_of_not_eq_true ‹_›⟩, rfl⟩

/-- An input that meets a blocked port is not ready, and only such an input. -/
theorem ready_eq_false_iff (x : Stimulus) (s : State) : ready x s = false ↔ Safety.MeetsBlockedPort s x := by
  cases x <;> simp [ready, Safety.MeetsBlockedPort]

/-- At the Serializer's turn a step is the Serializer's move; it takes nothing of what comes next but its own name. -/
theorem step_of_serializersTurn {s : State} (h : Safety.SerializersTurn s) : ∃ l, step s = serve (s.setStimuli l) := by
  have hs := s.setStimuli_self
  rcases h with h | ⟨rest, h⟩ | ⟨x, rest, h, hx⟩ <;> rw [h] at hs
  · exact ⟨[], by rw [hs]; simp [step, move, h]⟩
  · exact ⟨rest, by simp [step, move, h, ready, perform]⟩
  · exact ⟨x :: rest, by rw [hs]; simp [step, move, h, (ready_eq_false_iff x s).2 hx]⟩

/-- At any other moment a step meets the input that comes next, which is ready and is not the Serializer's name. -/
theorem step_of_not_serializersTurn {s : State} (h : ¬ Safety.SerializersTurn s) :
    ∃ x rest, s.stimuli = x :: rest ∧ x ≠ .serializer ∧ ready x s = true ∧ step s = perform x (s.setStimuli rest) := by
  rcases step_cases s with ⟨x, rest, hs, hr, he⟩ | ⟨hs | ⟨x, rest, hs, hr⟩, -⟩
  · exact ⟨x, rest, hs, fun hx => h (.inr (.inl ⟨rest, hx ▸ hs⟩)), hr, he⟩
  · exact absurd (.inl hs) h
  · exact absurd (.inr (.inr ⟨x, rest, hs, (ready_eq_false_iff x s).1 hr⟩)) h

/-- A request to a checksum unit (R80, R82 to R84): an accumulator or the returned value, nothing else. -/
theorem exec_instrOfCrc (k : Codec) (r : CrcRequest) (s : State) :
    ∃ t, exec (instrOfCrc k r) s = .next t ∧ ((∃ w, t = s.setCrcAcc k w) ∨ ∃ v, t = s.returnValue v) := by
  cases r with
  | init => exact ⟨_, rfl, .inl ⟨_, rfl⟩⟩
  | update b => exact ⟨_, rfl, .inl ⟨_, rfl⟩⟩
  | read => exact ⟨_, rfl, .inr ⟨_, rfl⟩⟩
  | whole bytes => exact ⟨_, rfl, .inr ⟨_, rfl⟩⟩

end Sys2Proof.Machine
end

