-- ==== Sys2Proof/Tests/Slice0.lean ====
section
/-! SUPPORT. Tests: the well-formedness checks, decoding of packets and tuples written out from the spec, one step at a time
against the vectors of 95_test_vectors.md, and for every statement a state and operands that meet its hypotheses. The packets
are the spec's own, or, for the function codes it gives no packet of, `[0x01, fc, 0x00]` with the CRC worked out by rule R80
outside the model. -/

namespace Sys2Proof.Tests

open Sys2Proof Sys2Proof.Machine Sys2Proof.Safety

set_option Elab.async false

/-! ### Helpers -/

/-- The outcome is a next state with a property. -/
def nextIs (o : Host.Outcome State Fault Refusal) (p : State → Bool) : Bool :=
  match o with
  | .next t => p t
  | .fault _ => false
  | .refused _ => false

/-- The outcome is a refusal for the given reason. -/
def refusedFor (o : Host.Outcome State Fault Refusal) (r : Refusal) : Bool :=
  match o with
  | .next _ => false
  | .fault _ => false
  | .refused q => decide (q = r)

/-- The reset state with an item in flight, a queue and what comes next. -/
def mk (ser : Serializer) (pending : List Item) (stimuli : List Stimulus) : State :=
  ((State.reset.setSer ser).setPending pending).setStimuli stimuli

/-- The reset state with other banks of device 1. -/
def withDevice (dev : Device) : State := State.reset.setMem [(1, dev)]

/-- The one packet answered by a next state, on port 0. -/
def answers (o : Host.Outcome State Fault Refusal) (bytes : List Byte) : Bool :=
  nextIs o fun t => decide (t.tx = [⟨0, bytes⟩])

/-- The Frame of V-DEC-1. -/
def frameDec1 : Frame := ⟨1, 3, [0, 0, 0, 10], 0xCDC5⟩

/-- The packet of V-DEC-1. -/
def packetDec1 : List Byte := [0x01, 0x03, 0x00, 0x00, 0x00, 0x0A, 0xC5, 0xCD]

/-- The Frame of V-DEC-2. -/
def frameDec2 : Frame := ⟨1, 7, [0], 0x3022⟩

/-! ### Well-formedness: each check refuses an ill-formed term -/

theorem test_wf_rc : (Instr.rc 0 1 []).wellFormed = false := by decide
theorem test_wf_rdi : (Instr.rdi 0 1 []).wellFormed = false := by decide
theorem test_wf_rhr : (Instr.rhr 0 1 []).wellFormed = false := by decide
theorem test_wf_rir : (Instr.rir 0 1 []).wellFormed = false := by decide
theorem test_wf_wsc : (Instr.wsc 0 1 []).wellFormed = false := by decide
theorem test_wf_wsr : (Instr.wsr 0 1 []).wellFormed = false := by decide
theorem test_wf_wmc : (Instr.wmc 0 1 []).wellFormed = false := by decide
theorem test_wf_wmr : (Instr.wmr 0 1 []).wellFormed = false := by decide
theorem test_wf_unbound :
    ([Instr.unbound00 0 1 [], .unbound07 0 1 [], .unbound08 0 1 0 [], .unbound0C 0 1 0 [], .unbound0E 0 1 [],
      .unbound11 0 1 [], .unbound12 0 1 0 [], .unbound14 0 1 0 [], .unbound18 0 1 0 [], .unbound20 0 1 0 [],
      .unbound40 0 1 0 [], .unbound80 0 1 0 []].any Instr.wellFormed) = false := by decide
theorem test_wf_setexc : (Instr.setexc frameDec1 .success).wellFormed = false := by decide
theorem test_wf_submit_trailer : (Instr.submit 0 ⟨1, 3, [0, 0, 0, 10], 0⟩).wellFormed = false := by decide +kernel
theorem test_wf_submit_payload : (Instr.submit 0 ⟨1, 3, [], 0x2140⟩).wellFormed = false := by decide +kernel
theorem test_wf_broadcast_id : (Instr.broadcast frameDec1).wellFormed = false := by decide
theorem test_wf_broadcast_payload : (Instr.broadcast ⟨0, 3, [], 0⟩).wellFormed = false := by decide
theorem test_wf_dropunknown_id : (Instr.dropunknown 0 ⟨0, 3, [0], 0⟩).wellFormed = false := by decide
theorem test_wf_dropunknown_payload : (Instr.dropunknown 0 ⟨3, 3, [], 0⟩).wellFormed = false := by decide
theorem test_wf_unicast_id : (Instr.unicast 0 ⟨0, 3, [0], 0⟩).wellFormed = false := by decide
theorem test_wf_unicast_payload : (Instr.unicast 0 ⟨1, 3, [], 0⟩).wellFormed = false := by decide
/-- V-DEC-1 is what a port submits. -/
theorem test_wf_accepts_submit : (Instr.submit 0 frameDec1).wellFormed = true := by decide +kernel

/-! ### Decoding: packets of 95_test_vectors.md, one for each row of the function-code map -/

/-- The decoder reads this instruction from a packet on port 0. -/
def reads (bytes : List Byte) (i : Instr) : Bool :=
  match decode (.packet 0 bytes) with
  | .ok j => decide (j = i)
  | .error _ => false

/-- The decoder rejects a packet by this name. -/
def rejects (bytes : List Byte) (e : DecodeError) : Bool :=
  match decode (.packet 0 bytes) with
  | .ok _ => false
  | .error f => decide (f = e)

theorem test_decode_rc : reads [0x01, 0x01, 0x00, 0x13, 0x00, 0x0A, 0x4D, 0xC8] (.rc 0 1 [0x00, 0x13, 0x00, 0x0A]) := by
  decide +kernel
theorem test_decode_rdi :
    reads [0x01, 0x02, 0x00, 0x00, 0x00, 0x09, 0xB8, 0x0C] (.rdi 0 1 [0x00, 0x00, 0x00, 0x09]) := by decide +kernel
theorem test_decode_rhr : reads packetDec1 (.rhr 0 1 [0x00, 0x00, 0x00, 0x0A]) := by decide +kernel
theorem test_decode_rir :
    reads [0x01, 0x04, 0x00, 0x05, 0x00, 0x02, 0x61, 0xCA] (.rir 0 1 [0x00, 0x05, 0x00, 0x02]) := by decide +kernel
theorem test_decode_wsc :
    reads [0x01, 0x05, 0x00, 0x1D, 0x12, 0x34, 0x50, 0xBB] (.wsc 0 1 [0x00, 0x1D, 0x12, 0x34]) := by decide +kernel
theorem test_decode_wsr :
    reads [0x01, 0x06, 0x03, 0xE8, 0x11, 0x22, 0x85, 0xF3] (.wsr 0 1 [0x03, 0xE8, 0x11, 0x22]) := by decide +kernel
theorem test_decode_wmc :
    reads [0x01, 0x0F, 0x00, 0x13, 0x00, 0x0A, 0x02, 0xCD, 0x01, 0x72, 0xCB]
      (.wmc 0 1 [0x00, 0x13, 0x00, 0x0A, 0x02, 0xCD, 0x01]) := by decide +kernel
theorem test_decode_wmr :
    reads [0x01, 0x10, 0x00, 0x10, 0x00, 0x01, 0x03, 0xAA, 0xBB, 0xCC, 0x92, 0xC2]
      (.wmr 0 1 [0x00, 0x10, 0x00, 0x01, 0x03, 0xAA, 0xBB, 0xCC]) := by decide +kernel
theorem test_decode_unbound00 : reads [0x01, 0x00, 0x00, 0x20, 0x00] (.unbound00 0 1 [0]) := by decide +kernel
theorem test_decode_unbound07 : reads [0x01, 0x07, 0x00, 0x22, 0x30] (.unbound07 0 1 [0]) := by decide +kernel
theorem test_decode_unbound08 : reads [0x01, 0x0B, 0x00, 0x27, 0x30] (.unbound08 0 1 3 [0]) := by decide +kernel
theorem test_decode_unbound0C : reads [0x01, 0x0D, 0x00, 0x24, 0x90] (.unbound0C 0 1 1 [0]) := by decide +kernel
theorem test_decode_unbound0E : reads [0x01, 0x0E, 0x00, 0x24, 0x60] (.unbound0E 0 1 [0]) := by decide +kernel
theorem test_decode_unbound11 : reads [0x01, 0x11, 0x00, 0x2C, 0x50] (.unbound11 0 1 [0]) := by decide +kernel
theorem test_decode_unbound12 : reads [0x01, 0x12, 0x00, 0x2C, 0xA0] (.unbound12 0 1 0 [0]) := by decide +kernel
theorem test_decode_unbound14 : reads [0x01, 0x17, 0x00, 0x2F, 0xF0] (.unbound14 0 1 3 [0]) := by decide +kernel
theorem test_decode_unbound18 : reads [0x01, 0x18, 0x00, 0x2A, 0x00] (.unbound18 0 1 0 [0]) := by decide +kernel
theorem test_decode_unbound20 : reads [0x01, 0x3F, 0x00, 0x31, 0xF0] (.unbound20 0 1 31 [0]) := by decide +kernel
theorem test_decode_unbound40 : reads [0x01, 0x40, 0x00, 0x11, 0xC0] (.unbound40 0 1 0 [0]) := by decide +kernel
/-- V-SER-2. -/
theorem test_decode_unbound80 : reads [0x01, 0x83, 0x00, 0x41, 0x30] (.unbound80 0 1 3 [0]) := by decide +kernel
/-- V-DEC-4: the length is tested first. -/
theorem test_decode_short : rejects [0x01, 0x03, 0x40, 0x21] .shortFrame := by decide +kernel
/-- V-DEC-6: the trailer is little-endian. -/
theorem test_decode_swapped_trailer : rejects [0x01, 0x03, 0x00, 0x00, 0x00, 0x0A, 0xCD, 0xC5] .checksumMismatch := by
  decide +kernel
theorem test_decode_createdev : decode (.command 0 7 9 .rc) = .ok (.createdev 7) := rfl
theorem test_decode_removedev : decode (.command 1 7 9 .rc) = .ok (.removedev 7) := rfl
theorem test_decode_reghandler : decode (.command 2 7 9 .rc) = .ok (.reghandler 9 .rc) := rfl
theorem test_decode_mg_reserved : decode (.command 3 7 9 .rc) = .ok .mgReserved := rfl
/-- The table row `0x08/0xFC` with its free bits 1 (log entry 12). -/
theorem test_table_word : decodeTableWord 8 9 = some (.unbound08 0 0 1 [0, 0, 0, 0, 0]) := by decide +kernel
/-- The very next step after reset runs the row's instruction: `mg_op = 0` on id 0 is `OutOfRange` (V-SER-7). -/
theorem test_fetch_word : nextIs (step (State.reset.withFetchWord 2 0)) fun t => decide (t.mg = [.outOfRange]) := by
  decide +kernel

/-! ### The Checksum Unit: V-CRC-9 and the streaming example of section 2.1 -/

theorem test_crc16_check_value :
    nextIs (exec (.crc16 [0x31, 0x32, 0x33, 0x34, 0x35, 0x36, 0x37, 0x38, 0x39]) State.reset)
      fun t => decide (t.result = some (.checksum 0x4B37)) := by decide +kernel
theorem test_crc_init :
    nextIs (exec (.crcInit (.port 2)) (State.reset.setCrcAcc (.port 2) 5)) fun t => decide (t.crcAcc (.port 2) = 0xFFFF) := by
  decide +kernel
theorem test_crc_update :
    nextIs (exec (.crcUpdate .serializer 0x03) (State.reset.setCrcAcc .serializer 0x807E))
      fun t => decide (t.crcAcc .serializer = 0x2140) := by decide +kernel
theorem test_crc_read :
    nextIs (exec (.crcRead (.port 0)) (State.reset.setCrcAcc (.port 0) 0x2140))
      fun t => decide (t.result = some (.checksum 0x2140) ∧ t.crcAcc (.port 0) = 0x2140) := by decide +kernel

/-! ### The Frame Codec: section 2.2 and 2.3 -/

theorem test_exec_decode :
    nextIs (exec (.decode 0 packetDec1) State.reset) fun t => decide (t.result = some (.decoded (.frame frameDec1))) := by
  decide +kernel
/-- V-PRI-1. -/
theorem test_exec_decode_short :
    nextIs (exec (.decode 4 [0x01, 0x03, 0x40, 0x20]) State.reset) fun t => decide (t.ev = [.shortFrame 4]) := by
  decide +kernel
/-- V-ENC-2, with a stale trailer. -/
theorem test_exec_encode :
    nextIs (exec (.encode ⟨1, 3, [0x02, 0x11, 0x22], 0xCDC5⟩) State.reset)
      fun t => decide (t.result = some (.packet [0x01, 0x03, 0x02, 0x11, 0x22, 0x34, 0x0D])) := by decide +kernel
/-- V-ENC-9. -/
theorem test_exec_copy :
    nextIs (exec (.copy frameDec1) State.reset) fun t => decide (t.result = some (.frame ⟨1, 3, [0, 0, 0, 10], 0xCDC5⟩)) := by
  decide +kernel
/-- V-ENC-6. -/
theorem test_exec_setexc :
    nextIs (exec (.setexc ⟨0x11, 1, [9, 9], 7⟩ .slaveDeviceFailure) State.reset)
      fun t => decide (t.result = some (.frame ⟨0x11, 0x81, [4], 7⟩)) := by decide +kernel
theorem test_exec_setexc_success :
    refusedFor (exec (.setexc frameDec1 .success) State.reset) .setExceptionWithSuccess := by decide +kernel

/-! ### Requests: sections 2.4 to 2.6 -/

/-- Coils 19 to 28 of V-RD-6. -/
def coilsRd6 : BitCells := [(19, true), (21, true), (22, true), (25, true), (26, true), (27, true)]

/-- V-RD-6. -/
theorem test_exec_rc :
    answers (exec (.rc 0 1 [0x00, 0x13, 0x00, 0x0A]) (withDevice { Device.zero with co := coilsRd6 }))
      [0x01, 0x01, 0x02, 0xCD, 0x01, 0x2C, 0xAC] := by decide +kernel
/-- V-RD-10. -/
theorem test_exec_rc_range :
    answers (exec (.rc 0 1 [0xFF, 0xF8, 0x00, 0x09]) State.reset) [0x01, 0x81, 0x02, 0xC1, 0x91] := by decide +kernel
/-- V-RD-3, and the coils of the same addresses are other cells. -/
theorem test_exec_rdi :
    answers (exec (.rdi 0 1 [0x00, 0x00, 0x00, 0x09]) (withDevice { Device.zero with co := [(0, true)] }))
      [0x01, 0x02, 0x02, 0x00, 0x00, 0xB9, 0xB8] := by decide +kernel
/-- V-RD-5. -/
theorem test_exec_rhr :
    answers (exec (.rhr 0 1 [0x07, 0xD0, 0x00, 0x04])
        (withDevice { Device.zero with hr := [(2000, 0x3344), (2001, 0x5566), (2002, 0x7788), (2003, 0x9900)] }))
      [0x01, 0x03, 0x08, 0x33, 0x44, 0x55, 0x66, 0x77, 0x88, 0x99, 0x00, 0x27, 0x11] := by decide +kernel
/-- V-RD-8. -/
theorem test_exec_rhr_range :
    answers (exec (.rhr 0 1 [0xFF, 0xFF, 0x00, 0x02]) State.reset) [0x01, 0x83, 0x02, 0xC0, 0xF1] := by decide +kernel
/-- V-RD-4, and the holding registers of the same addresses are other cells. -/
theorem test_exec_rir :
    answers (exec (.rir 0 1 [0x00, 0x05, 0x00, 0x02]) (withDevice { Device.zero with hr := [(5, 1)] }))
      [0x01, 0x04, 0x04, 0x00, 0x00, 0x00, 0x00, 0xFB, 0x84] := by decide +kernel
/-- V-WR-5: any non-zero value stores 1 and is echoed as it was sent. -/
theorem test_exec_wsc :
    nextIs (exec (.wsc 0 1 [0x00, 0x1D, 0x12, 0x34]) State.reset) fun t =>
      decide (t.mem = [(1, { Device.zero with co := [(29, true)] })] ∧
        t.tx = [⟨0, [0x01, 0x05, 0x00, 0x1D, 0x12, 0x34, 0x50, 0xBB]⟩]) := by decide +kernel
/-- V-WR-4: a coil that is cleared leaves the list. -/
theorem test_exec_wsc_clear :
    nextIs (exec (.wsc 0 1 [0x00, 0x13, 0x00, 0x00]) (withDevice { Device.zero with co := [(19, true)] })) fun t =>
      decide (t.mem = [(1, Device.zero)]) := by decide +kernel
/-- V-WR-2: no range failure at the last register. -/
theorem test_exec_wsr :
    nextIs (exec (.wsr 0 1 [0xFF, 0xFF, 0xBE, 0xEF]) State.reset) fun t =>
      decide (t.mem = [(1, { Device.zero with hr := [(65535, 0xBEEF)] })] ∧
        t.tx = [⟨0, [0x01, 0x06, 0xFF, 0xFF, 0xBE, 0xEF, 0xB9, 0xC2]⟩]) := by decide +kernel
/-- V-WR-20. -/
theorem test_exec_wsr_short :
    nextIs (exec (.wsr 0 1 [0x00, 0x01]) State.reset) fun t =>
      decide (t.mem = State.reset.mem ∧ t.tx = [⟨0, [0x01, 0x86, 0x02, 0xC3, 0xA1]⟩]) := by decide +kernel
/-- V-WR-15: it stops at the quantity, not at the byte. -/
theorem test_exec_wmc :
    nextIs (exec (.wmc 0 1 [0x00, 0x40, 0x00, 0x03, 0x01, 0xFF]) State.reset) fun t =>
      decide (t.mem = [(1, { Device.zero with co := [(64, true), (65, true), (66, true)] })] ∧
        t.tx = [⟨0, [0x01, 0x0F, 0x00, 0x40, 0x00, 0x03, 0x14, 0x1E]⟩]) := by decide +kernel
/-- V-WR-16. -/
theorem test_exec_wmc_short :
    nextIs (exec (.wmc 0 1 [0x00, 0x50, 0x00, 0x09, 0x01, 0xFF]) State.reset) fun t =>
      decide (t.mem = State.reset.mem ∧ t.tx = [⟨0, [0x01, 0x8F, 0x02, 0xC5, 0xF1]⟩]) := by decide +kernel
/-- V-WR-7: up to the last register, big-endian. -/
theorem test_exec_wmr :
    nextIs (exec (.wmr 0 1 [0xFF, 0xFE, 0x00, 0x02, 0x04, 0xDE, 0xAD, 0xBE, 0xEF]) State.reset) fun t =>
      decide (t.mem = [(1, { Device.zero with hr := [(65534, 0xDEAD), (65535, 0xBEEF)] })] ∧
        t.tx = [⟨0, [0x01, 0x10, 0xFF, 0xFE, 0x00, 0x02, 0x10, 0x2C]⟩]) := by decide +kernel
/-- V-WR-8. -/
theorem test_exec_wmr_count :
    nextIs (exec (.wmr 0 1 [0x07, 0xD0, 0x00, 0x04, 0x06, 0x33, 0x44, 0x55, 0x66, 0x77, 0x88]) State.reset) fun t =>
      decide (t.mem = State.reset.mem ∧ t.tx = [⟨0, [0x01, 0x90, 0x02, 0xCD, 0xC1]⟩]) := by decide +kernel
/-- V-SER-1. -/
theorem test_exec_unbound07 :
    answers (exec (.unbound07 0 1 [0]) State.reset) [0x01, 0x87, 0x01, 0x82, 0x30] := by decide +kernel
/-- V-SER-2. -/
theorem test_exec_unbound80 :
    answers (exec (.unbound80 0 1 3 [0]) State.reset) [0x01, 0x83, 0x01, 0x80, 0xF0] := by decide +kernel
/-- V-SER-2. -/
theorem test_exec_unbound00 :
    answers (exec (.unbound00 0 1 [0]) State.reset) [0x01, 0x80, 0x01, 0x80, 0x00] := by decide +kernel

/-! ### The Request Serializer and management: section 2.6 and program P3 -/

/-- Devices 1 and 2. -/
def twoDevices : State := State.reset.setMem [(1, Device.zero), (2, Device.zero)]

/-- P3 step 2. -/
theorem test_exec_broadcast :
    nextIs (exec (.broadcast ⟨0, 6, [0x00, 0x64, 0xAB, 0xCD], 0x6177⟩) twoDevices) fun t =>
      decide (t.mem = [(1, { Device.zero with hr := [(100, 0xABCD)] }), (2, { Device.zero with hr := [(100, 0xABCD)] })] ∧
        t.tx = []) := by decide +kernel
/-- V-SER-4: id 248. -/
theorem test_exec_drop_unknown :
    nextIs (exec (.rhr 5 248 [0x00, 0x00, 0x00, 0x01]) State.reset) fun t =>
      decide (t.ev = [.unknownDevice 5 248] ∧ t.tx = []) := by decide +kernel
/-- V-PRI-3: device lookup before dispatch. -/
theorem test_exec_drop_before_dispatch :
    nextIs (exec (.unbound07 0 3 [0]) State.reset) fun t => decide (t.ev = [.unknownDevice 0 3] ∧ t.tx = []) := by
  decide +kernel
/-- P1 step 2. -/
theorem test_exec_unicast :
    answers (exec (.unicast 0 ⟨1, 3, [0x03, 0xE8, 0x00, 0x01], 0x7A04⟩)
        (withDevice { Device.zero with hr := [(1000, 0x1122)] })) [0x01, 0x03, 0x02, 0x11, 0x22, 0x34, 0x0D] := by
  decide +kernel
/-- V-ENC-4's packet, presented on port 3. -/
theorem test_exec_respond :
    nextIs (exec (.respond 3 ⟨1, 0x83, [2], 0⟩) State.reset) fun t =>
      decide (t.tx = [⟨3, [0x01, 0x83, 0x02, 0xC0, 0xF1]⟩]) := by decide +kernel
theorem test_exec_submit :
    nextIs (exec (.submit 2 frameDec1) (mk .idle [.req 0 frameDec2] [])) fun t =>
      decide (t.pending = [.req 0 frameDec2, .req 2 frameDec1] ∧ t.portBlocked 2) := by decide +kernel
theorem test_exec_accept :
    nextIs (exec .accept (mk .idle [.req 0 frameDec2, .req 2 frameDec1] [])) fun t =>
      decide (t.ser = .processing (.req 0 frameDec2) ∧ t.pending = [.req 2 frameDec1]) := by decide +kernel
/-- V-SER-11, second half: the target was removed while the request waited. -/
theorem test_exec_complete :
    nextIs (exec .complete ((mk (.processing (.req 0 frameDec1)) [] []).setMem [])) fun t =>
      decide (t.ser = .idle ∧ t.ev = [.unknownDevice 0 1] ∧ t.tx = []) := by decide +kernel
/-- V-SER-7. -/
theorem test_exec_createdev :
    nextIs (exec (.createdev 2) State.reset) fun t => decide (t.mem = twoDevices.mem ∧ t.mg = [.ok]) := by decide +kernel
theorem test_exec_createdev_exists :
    nextIs (exec (.createdev 1) (withDevice { Device.zero with hr := [(3, 4)] })) fun t =>
      decide (t.mem = [(1, { Device.zero with hr := [(3, 4)] })] ∧ t.mg = [.alreadyExists]) := by decide +kernel
/-- V-SER-8. -/
theorem test_exec_removedev :
    nextIs (exec (.removedev 1) State.reset) fun t => decide (t.mem = [] ∧ t.mg = [.ok]) := by decide +kernel
theorem test_exec_removedev_absent :
    nextIs (exec (.removedev 2) State.reset) fun t => decide (t.mem = State.reset.mem ∧ t.mg = [.notFound]) := by
  decide +kernel
/-- V-SER-5, the binding; the answer is `test_rebound_slot`. -/
theorem test_exec_reghandler :
    nextIs (exec (.reghandler 3 .unbound) State.reset) fun t =>
      decide (t.slotAt 3 = .unbound ∧ t.slotAt 4 = .rir ∧ t.mg = [.ok]) := by decide +kernel
/-- V-SER-5. -/
theorem test_rebound_slot :
    answers (exec (.rhr 0 1 [0x00, 0x00, 0x00, 0x01]) (State.reset.setSlot 3 .unbound)) [0x01, 0x83, 0x01, 0x80, 0xF0] := by
  decide +kernel
theorem test_exec_reghandler_busy :
    refusedFor (exec (.reghandler 3 .unbound) (mk .idle [.req 0 frameDec1] [])) .registerHandlerNotQuiescent := by
  decide +kernel
theorem test_exec_mg_reserved : refusedFor (exec .mgReserved State.reset) .reservedManagementOperation := by decide +kernel
/-- Reset (R161) loses the item in flight and what waits. -/
theorem test_step_reset :
    nextIs (step (mk (.processing (.req 0 frameDec1)) [.mgmt (.create 9)] [.rst])) fun t =>
      decide (t.ser = .idle ∧ t.pending = [] ∧ t.mem = State.reset.mem ∧ t.slotAt 3 = .rhr ∧ t.tx = []) := by
  decide +kernel

/-! ### Witnesses: for each statement with hypotheses, concrete values that meet them, at the bounds of each clause -/

theorem registered_reset : Registered State.reset 1 := ⟨by decide, by decide⟩

theorem defaultHandler_reset (fc : Byte) : DefaultHandler (State.reset.slotAt fc) := by
  intro k
  rw [State.slotAt_reset]
  unfold defaultBinding
  split_ifs <;> simp

/-- States that differ from reset in control only, with decoded items. -/
theorem inv_mk_idle (pending : List Item) (stimuli : List Stimulus) (h1 : (waitingPorts pending).Nodup)
    (h2 : pending.countP Item.isMgmt ≤ 1) (h3 : ∀ it ∈ pending, ItemDecoded it) : Inv (mk .idle pending stimuli) :=
  ⟨(by decide : State.reset.mem.wf), h1, h2, h3, by simp [mk, State.cur], (by decide : Assoc.rising State.reset.crcPort),
    (by decide : ∀ e ∈ State.reset.crcPort, e.2 ≠ Config.crcInit)⟩

theorem inv_reset : Inv State.reset := inv_mk_idle [] [] (by decide) (by decide) (by simp)

theorem witness_EverySingleBitErrorIsAChecksumMismatch :
    decodePacket packetDec1 = .frame frameDec1 ∧ 0 < 8 * packetDec1.length ∧ 63 < 8 * packetDec1.length := by
  decide +kernel

/-- V-DEC-4 (length 4), V-DEC-7 (length 5, wrong trailer), V-DEC-2 (length 5, right trailer). -/
theorem witness_DecodeTestsLengthThenChecksumThenSplits :
    [0x01#8, 0x03, 0x40, 0x21].length < 5 ∧
    (5 ≤ [0x00#8, 0, 0, 0, 0].length ∧ readLE16 [0x00#8, 0, 0, 0, 0] 3 ≠ crc16 ([0x00#8, 0, 0, 0, 0].take 3)) ∧
    (5 ≤ [0x01#8, 0x07, 0x00, 0x22, 0x30].length ∧
      readLE16 [0x01#8, 0x07, 0x00, 0x22, 0x30] 3 = crc16 ([0x01#8, 0x07, 0x00, 0x22, 0x30].take 3)) := by decide +kernel

theorem witness_SetExceptionSetsBitSevenAndTheOneCodeByte :
    Exception.illegalFunction ≠ .success ∧ Exception.illegalDataAddress ≠ .success ∧
      Exception.slaveDeviceFailure ≠ .success ∧ Exception.success = .success := by decide

theorem witness_CodecRoundTripsEveryFrameWithAPayload :
    frameDec2.payload ≠ [] ∧ ({ frameDec2 with payload := [] } : Frame).payload = [] ∧
      decodePacket packetDec1 = .frame frameDec1 := by decide +kernel

theorem witness_EveryOtherTrailerIsAChecksumMismatch :
    decodePacket ([0x01, 0x07, 0x00] ++ le16 0x3022) = .frame frameDec2 ∧ (0x3023#16 ≠ 0x3022) := by decide +kernel

theorem witness_DecodeOfEncodeIsTheInstruction :
    (Instr.unbound80 0 1 127 [0]).wellFormed = true ∧
      encode (.unbound80 0 1 127 [0]) = some (.packet 0 [0x01, 0xFF, 0x00, 0x61, 0xF0]) ∧
      Instr.accept.wellFormed = true ∧ encode .accept = none := by decide +kernel

theorem witness_EncodeOfADecodedPacketIsThePacket : decode (.packet 0 packetDec1) = .ok (.rhr 0 1 [0, 0, 0, 10]) := by
  have h : decodePacket packetDec1 = .frame frameDec1 := by decide +kernel
  simp only [decode, h]
  rfl

theorem witness_EveryFunctionCodeSelectsItsRow :
    (Instr.unbound08 0 1 3 [0]).request? = some ⟨0, 1, 0x0B, [0]⟩ ∧ (Instr.rc 0 1 [0]).request? = some ⟨0, 1, 1, [0]⟩ := by
  decide

/-- Nothing comes next, and the schedule names the Serializer. -/
theorem witness_AStepRunsTheDecodedInstruction :
    decodePacket packetDec1 = .frame frameDec1 ∧
      (mk (.processing (.req 0 frameDec1)) [] []).ser = .processing (.req 0 frameDec1) ∧
      (mk (.processing (.req 0 frameDec1)) [] []).stimuli = [] ∧
      (mk (.processing (.req 0 frameDec1)) [] [.serializer, .rst]).stimuli = .serializer :: [.rst] := by decide +kernel

theorem witness_AStepRunsTheInstructionOfAStimulus :
    (mk .idle [] [.mg 2#2 0 3 .rhr]).stimuli = .mg 2#2 0 3 .rhr :: [] ∧
      (mk .idle [] [.mg 3#2 0 0 .unbound]).stimuli = .mg 3#2 0 0 .unbound :: [] ∧
      (mk .idle [] [.mg 2#2 0 3 .rhr]).mgBlocked = false ∧ (mk .idle [] [.mg 3#2 0 0 .unbound]).mgBlocked = false ∧
      (mk .idle [] [.crc (.port 0) .init]).stimuli = .crc (.port 0) .init :: [] ∧
      (mk .idle [] [.crc .serializer (.update 1)]).stimuli = .crc .serializer (.update 1) :: [] ∧
      (mk .idle [] [.crc (.port 0) .read]).stimuli = .crc (.port 0) .read :: [] ∧
      (mk .idle [] [.crc (.port 0) (.whole [1])]).stimuli = .crc (.port 0) (.whole [1]) :: [] := by decide +kernel

/-- Nothing comes next, and the schedule names the Serializer; an id at the end of its range, and one beyond it. -/
theorem witness_AStepRunsTheLifecycleCommandInFlight :
    (mk (.processing (.mgmt (.create 248))) [] [.serializer, .rst]).stimuli = .serializer :: [.rst] ∧
      (mk (.processing (.mgmt (.create 248))) [] [.serializer, .rst]).ser = .processing (.mgmt (.create 248)) ∧
      (mk (.processing (.mgmt (.remove 1))) [] []).stimuli = [] ∧
    (mk (.processing (.mgmt (.create 247))) [] []).stimuli = [] ∧
      (mk (.processing (.mgmt (.create 247))) [] []).ser = .processing (.mgmt (.create 247)) ∧
      (mk (.processing (.mgmt (.remove 1))) [] []).ser = .processing (.mgmt (.remove 1)) := by decide +kernel

theorem witness_AnArrivingPacketIsDecodedAndSubmitted :
    (mk .idle [.req 1 frameDec2] [.rx 0 packetDec1]).stimuli = .rx 0 packetDec1 :: [] ∧
      (mk .idle [.req 1 frameDec2] [.rx 0 packetDec1]).portBlocked 0 = false ∧
      decodePacket packetDec1 = .frame frameDec1 := by decide +kernel

/-- V-DEC-4 and V-DEC-7. -/
theorem witness_AFramingFailureOnlyEmitsItsEvent :
    ((mk .idle [] [.rx 0 [0x01, 0x03, 0x40, 0x21]]).stimuli = .rx 0 [0x01, 0x03, 0x40, 0x21] :: [] ∧
      (mk .idle [] [.rx 0 [0x01, 0x03, 0x40, 0x21]]).portBlocked 0 = false ∧
      decodePacket [0x01, 0x03, 0x40, 0x21] = .shortFrame) ∧
    ((mk .idle [] [.rx 0 [0, 0, 0, 0, 0]]).stimuli = .rx 0 [0, 0, 0, 0, 0] :: [] ∧
      (mk .idle [] [.rx 0 [0, 0, 0, 0, 0]]).portBlocked 0 = false ∧
      decodePacket [0, 0, 0, 0, 0] = .checksumMismatch) := by decide +kernel

theorem witness_ALifecycleCommandJoinsTheQueue :
    (mk .idle [.req 0 frameDec1] [.mg 0 7 0 .unbound]).mgBlocked = false ∧
      (mk .idle [.req 0 frameDec1] [.mg 0 7 0 .unbound]).stimuli = .mg 0#2 7 0 .unbound :: [] ∧
      (mk .idle [.req 0 frameDec1] [.mg 1 7 0 .unbound]).mgBlocked = false ∧
      (mk .idle [.req 0 frameDec1] [.mg 1 7 0 .unbound]).stimuli = .mg 1#2 7 0 .unbound :: [] := by decide +kernel

/-- A packet for a blocked port; a RegisterHandler while a lifecycle command is queued, and one while it is in flight. -/
theorem witness_ABlockedPortTakesNoPacket :
    ((mk .idle [.req 0 frameDec1] [.rx 0 packetDec1]).stimuli = .rx 0 packetDec1 :: [] ∧
      (mk .idle [.req 0 frameDec1] [.rx 0 packetDec1]).portBlocked 0 = true) ∧
    ((mk .idle [.mgmt (.create 2)] [.mg 2 0 3 .rhr]).stimuli = .mg 2#2 0 3 .rhr :: [] ∧
      (mk .idle [.mgmt (.create 2)] [.mg 2 0 3 .rhr]).mgBlocked = true) ∧
    ((mk (.processing (.mgmt (.create 2))) [] [.mg 2 0 3 .rhr]).stimuli = .mg 2#2 0 3 .rhr :: [] ∧
      (mk (.processing (.mgmt (.create 2))) [] [.mg 2 0 3 .rhr]).mgBlocked = true) := by decide +kernel

theorem witness_ThreeStepsServeAPacketAtAQuiescentBlock :
    State.reset.quiescent = true ∧ decode (.packet 0 packetDec1) = .ok (.rhr 0 1 [0, 0, 0, 10]) :=
  ⟨by decide +kernel, witness_EncodeOfADecodedPacketIsThePacket⟩

/-- The last coil run, `1 + 65535 = 65536`, and quantity 0. -/
theorem witness_BitReadsAnswerThePackedCells :
    Registered State.reset 1 ∧ (4 ≤ [0x00#8, 0x01, 0xFF, 0xFF].length) ∧
      (field0 [0x00, 0x01, 0xFF, 0xFF] + field1 [0x00, 0x01, 0xFF, 0xFF] ≤ 65536) ∧
      (field0 [0xFF, 0xFF, 0x00, 0x00] + field1 [0xFF, 0xFF, 0x00, 0x00] ≤ 65536) ∧
      State.reset.slotAt 0x01#8 = .rc ∧ State.reset.slotAt 0x02#8 = .rdi :=
  ⟨registered_reset, by decide +kernel⟩

/-- The last register, and quantity 0. -/
theorem witness_WordReadsAnswerTheRegistersBigEndian :
    Registered State.reset 1 ∧ (4 ≤ [0xFF#8, 0xFF, 0x00, 0x01].length) ∧
      (field0 [0xFF, 0xFF, 0x00, 0x01] + field1 [0xFF, 0xFF, 0x00, 0x01] ≤ 65536) ∧
      (field0 [0xFF, 0xFF, 0x00, 0x00] + field1 [0xFF, 0xFF, 0x00, 0x00] ≤ 65536) ∧
      State.reset.slotAt 0x03#8 = .rhr ∧ State.reset.slotAt 0x04#8 = .rir :=
  ⟨registered_reset, by decide +kernel⟩

theorem witness_WriteSingleCoilStoresTheNormalizedBit :
    Registered State.reset 1 ∧ State.reset.slotAt 0x05#8 = .wsc ∧ 4 ≤ [0xFF#8, 0xFF, 0x00, 0x00].length :=
  ⟨registered_reset, by decide +kernel⟩

theorem witness_WriteSingleRegisterStoresTheWord :
    Registered State.reset 1 ∧ State.reset.slotAt 0x06#8 = .wsr ∧ 4 ≤ [0xFF#8, 0xFF, 0xBE, 0xEF].length :=
  ⟨registered_reset, by decide +kernel⟩

/-- V-WR-18: up to the last coil, every data bit used. -/
theorem witness_WriteMultipleCoilsStoresExactlyItsRun :
    Registered State.reset 1 ∧ State.reset.slotAt 0x0F#8 = .wmc ∧
      5 ≤ [0xFF#8, 0xF8, 0x00, 0x08, 0x01, 0xA5].length ∧
      field0 [0xFF, 0xF8, 0x00, 0x08, 0x01, 0xA5] + field1 [0xFF, 0xF8, 0x00, 0x08, 0x01, 0xA5] ≤ 65536 ∧
      field1 [0xFF, 0xF8, 0x00, 0x08, 0x01, 0xA5] ≤ 8 * ([0xFF#8, 0xF8, 0x00, 0x08, 0x01, 0xA5].length - 5) :=
  ⟨registered_reset, by decide +kernel⟩

/-- V-WR-10: an odd last byte. -/
theorem witness_WriteMultipleRegistersStoresExactlyItsRun :
    Registered State.reset 1 ∧ State.reset.slotAt 0x10#8 = .wmr ∧
      5 ≤ [0x00#8, 0x10, 0x00, 0x01, 0x03, 0xAA, 0xBB, 0xCC].length ∧
      field0 [0x00, 0x10, 0x00, 0x01, 0x03, 0xAA, 0xBB, 0xCC] + field1 [0x00, 0x10, 0x00, 0x01, 0x03, 0xAA, 0xBB, 0xCC]
        ≤ 65536 ∧
      ([0x00#8, 0x10, 0x00, 0x01, 0x03, 0xAA, 0xBB, 0xCC].length - 5) / 2
        = field1 [0x00, 0x10, 0x00, 0x01, 0x03, 0xAA, 0xBB, 0xCC] :=
  ⟨registered_reset, by decide +kernel⟩

theorem witness_ARegisterReadsBackWhatWasWritten :
    Registered State.reset 1 ∧ State.reset.slotAt 0x06#8 = .wsr ∧ State.reset.slotAt 0x03#8 = .rhr :=
  ⟨registered_reset, by decide +kernel⟩

/-- 127 registers up to the last one. -/
theorem witness_ARegisterRunReadsBackWhatWasWritten :
    Registered State.reset 1 ∧ State.reset.slotAt 0x10#8 = .wmr ∧ State.reset.slotAt 0x03#8 = .rhr ∧
      (65409#16).toNat + (127#16).toNat ≤ 65536 ∧ (127#16).toNat ≤ 127 ∧
      (List.replicate 254 0x5A#8).length = 2 * (127#16).toNat :=
  ⟨registered_reset, by decide +kernel⟩

theorem witness_AnUnboundFunctionCodeIsIllegalFunction :
    (Instr.unbound80 0 1 127 [0]).request? = some ⟨0, 1, 0xFF, [0]⟩ ∧ State.reset.slotAt 0xFF = .unbound ∧
      Registered State.reset 1 ∧ (Instr.unbound07 0 0 [0]).request? = some ⟨0, 0, 7, [0]⟩ ∧
      State.reset.slotAt 7 = .unbound :=
  ⟨by decide, by decide +kernel, registered_reset, by decide, by decide +kernel⟩

/-- Each cause of R142, at its bound: short payloads, a range one too long, one data bit and one data word too few. -/
theorem witness_AFailedCheckIsIllegalDataAddressAndWritesNothing :
    Registered State.reset 1 ∧ (Instr.rc 0 1 [0, 0, 0]).request? = some ⟨0, 1, 1, [0, 0, 0]⟩ ∧
      ChecksFail (State.reset.slotAt 1) [0, 0, 0] ∧ ChecksFail (State.reset.slotAt 2) [0x00, 0x02, 0xFF, 0xFF] ∧
      ChecksFail (State.reset.slotAt 3) [0xFF, 0xFF, 0x00, 0x02] ∧ ChecksFail (State.reset.slotAt 4) [0, 0, 0] ∧
      ChecksFail (State.reset.slotAt 5) [0, 0, 0] ∧ ChecksFail (State.reset.slotAt 6) [0, 0, 0] ∧
      ChecksFail (State.reset.slotAt 15) [0, 0, 0, 0] ∧ ChecksFail (State.reset.slotAt 15) [0, 0, 0, 9, 1, 0xFF] ∧
      ChecksFail (State.reset.slotAt 16) [0, 0, 0, 1, 2, 0xAA] := by
  refine ⟨registered_reset, by decide, ?_⟩
  have h1 : State.reset.slotAt 1 = .rc ∧ State.reset.slotAt 2 = .rdi ∧ State.reset.slotAt 3 = .rhr := by decide +kernel
  have h2 : State.reset.slotAt 4 = .rir ∧ State.reset.slotAt 5 = .wsc ∧ State.reset.slotAt 6 = .wsr := by decide +kernel
  have h3 : State.reset.slotAt 15 = .wmc ∧ State.reset.slotAt 16 = .wmr := by decide +kernel
  simp only [h1, h2, h3, ChecksFail]
  decide +kernel

theorem witness_ARequestToAnUnknownDeviceIsDropped :
    (Instr.rhr 0 248 [0, 0, 0, 1]).request? = some ⟨0, 248, 3, [0, 0, 0, 1]⟩ ∧ 248#8 ≠ 0#8 ∧
      State.reset.mem.devValid (248#8).toNat = false ∧ Inv State.reset ∧ 248 ≤ (248#8).toNat :=
  ⟨by decide, by decide, by decide, inv_reset, by decide⟩

theorem witness_AHandlerOnAnAbsentDeviceIsSlaveDeviceFailure :
    State.reset.mem.devValid (0x11#8).toNat = false ∧ DefaultHandler (State.reset.slotAt 1) ∧
      State.reset.slotAt 1 ≠ .unbound :=
  ⟨by decide, defaultHandler_reset 1, by decide +kernel⟩

theorem witness_NoRequestIsAnsweredSlaveDeviceFailure :
    (Instr.unbound07 0 1 [0]).request? = some ⟨0, 1, 7, [0]⟩ ∧ DefaultHandler (State.reset.slotAt 7) ∧
      ∃ t, exec (.unbound07 0 1 [0]) State.reset = .next t :=
  ⟨by decide, defaultHandler_reset 7, _, rfl⟩

theorem witness_ProcessingIsBroadcastDropUnicastOrTheCommand :
    (⟨0, 3, [0], 0⟩ : Frame).deviceId = 0#8 ∧ (⟨248, 3, [0], 0⟩ : Frame).deviceId ≠ 0#8 ∧
      State.reset.mem.devValid (⟨248, 3, [0], 0⟩ : Frame).deviceId.toNat = false ∧ frameDec1.deviceId ≠ 0#8 ∧
      State.reset.mem.devValid frameDec1.deviceId.toNat = true := by decide

theorem witness_SubmitJoinsTheQueueAtTheTail : (mk .idle [.req 0 frameDec2] []).portBlocked 2 = false := by decide +kernel

theorem witness_AcceptTakesTheOldestItem :
    (mk .idle [.req 0 frameDec1, .mgmt (.create 2)] []).ser = .idle ∧
      (mk .idle [.req 0 frameDec1, .mgmt (.create 2)] []).pending = .req 0 frameDec1 :: [.mgmt (.create 2)] ∧
      Inv (mk .idle [.req 0 frameDec1, .mgmt (.create 2)] []) := by
  have h : ItemDecoded (.req 0 frameDec1) := by
    show decodedFrame frameDec1
    decide +kernel
  refine ⟨by decide +kernel, by decide +kernel, inv_mk_idle _ _ (by decide +kernel) (by decide) ?_⟩
  simp only [List.mem_cons, List.not_mem_nil, or_false]
  rintro it (rfl | rfl)
  · exact h
  · trivial

theorem witness_CompleteProcessesTheItemAndReturnsToIdle :
    (mk (.processing (.req 0 frameDec1)) [] []).ser = .processing (.req 0 frameDec1) := by decide +kernel

theorem witness_AnOperationThatIsNotEnabledWaits :
    (mk (.processing (.req 0 frameDec1)) [] []).ser ≠ .idle ∧ State.reset.pending = [] ∧ State.reset.ser = .idle ∧
      (mk .idle [.req 0 frameDec1] []).portBlocked 0 = true := by decide +kernel

theorem witness_ABroadcastActsOnEachDeviceAsAUnicastWould :
    (Instr.wsr 0 0 [0, 0, 0, 1]).request? = some ⟨0, 0, 6, [0, 0, 0, 1]⟩ ∧ DefaultHandler (State.reset.slotAt 6) ∧
      Registered (State.reset.setMem [(247, Device.zero)]) 247 ∧ (247#8).toNat ≤ 247 ∧
      State.reset.mem.devValid 2 = false :=
  ⟨by decide, defaultHandler_reset 6, ⟨by decide, by decide⟩, by decide, by decide⟩

/-- A handler that succeeds, and one that does not. -/
theorem witness_UnicastAnswersWithTheHandlersOutcome :
    (runHandler (State.reset.slotAt 3) State.reset.mem 1 [0, 0, 0, 10]).exc = .success ∧
      (runHandler (State.reset.slotAt 7) State.reset.mem 1 [0]).exc ≠ .success := by decide +kernel

theorem witness_CreateDeviceMakesAnAllZeroDevice :
    ¬ (1 ≤ (0#8).toNat ∧ (0#8).toNat ≤ 247) ∧ ¬ (1 ≤ (248#8).toNat ∧ (248#8).toNat ≤ 247) ∧
      ((1 ≤ (1#8).toNat ∧ (1#8).toNat ≤ 247) ∧ State.reset.mem.devValid (1#8).toNat = true) ∧
      ((1 ≤ (247#8).toNat ∧ (247#8).toNat ≤ 247) ∧ State.reset.mem.devValid (247#8).toNat = false) := by decide

theorem witness_RemoveDeviceDeletesTheDevice :
    ¬ (1 ≤ (0#8).toNat ∧ (0#8).toNat ≤ 247) ∧ ¬ (1 ≤ (248#8).toNat ∧ (248#8).toNat ≤ 247) ∧
      ((1 ≤ (247#8).toNat ∧ (247#8).toNat ≤ 247) ∧ State.reset.mem.devValid (247#8).toNat = false) ∧
      ((1 ≤ (1#8).toNat ∧ (1#8).toNat ≤ 247) ∧ State.reset.mem.devValid (1#8).toNat = true) := by decide

theorem witness_RegisterHandlerChangesOneSlotOfAQuiescentBlock :
    State.reset.ser = .idle ∧ State.reset.pending = [] ∧ (mk (.processing (.req 0 frameDec1)) [] []).ser ≠ .idle ∧
      (mk .idle [.req 0 frameDec1] []).pending ≠ [] := by decide +kernel

theorem witness_ResetLeavesTheSpecifiedState :
    (mk (.processing (.req 0 frameDec1)) [.req 0 frameDec2] [.rst]).stimuli = .rst :: [] := by decide +kernel

theorem witness_EveryStepKeepsTheInvariant :
    Inv (mk .idle [] [.rst]) ∧ ∃ t, step (mk .idle [] [.rst]) = .next t :=
  ⟨inv_mk_idle _ _ (by decide) (by decide) (by simp), _, rfl⟩

theorem witness_TheReadOnlyBanksNeverChangeUnderDefaultHandlers :
    BaselineTable State.reset ∧ (∀ rest, State.reset.stimuli ≠ .rst :: rest) ∧
      (∃ t, step State.reset = .next t ∧ t.mem.devValid 1 = true) ∧ State.reset.mem.devValid 1 = true :=
  ⟨defaultHandler_reset, by simp [State.reset], ⟨_, rfl, by decide⟩, by decide⟩

/-- A step in `PROCESSING` that meets a CreateDevice, and the Complete of an item while a packet waits at a blocked port. -/
theorem witness_OnlyTheItemInFlightWritesTheStore :
    ((∃ t, step (mk (.processing (.req 0 frameDec1)) [] [.mg 0 2 0 .unbound]) = .next t) ∧
        ¬ MeetsReset (mk (.processing (.req 0 frameDec1)) [] [.mg 0 2 0 .unbound]) ∧
        ¬ SerializersTurn (mk (.processing (.req 0 frameDec1)) [] [.mg 0 2 0 .unbound])) ∧
      SerializersTurn (mk (.processing (.req 1 frameDec1)) [.req 0 frameDec1] [.rx 0 packetDec1]) ∧
      (Instr.wsr 0 1 [0, 0, 0, 1]).request? = some ⟨0, 1, 6, [0, 0, 0, 1]⟩ ∧
      ∃ t, exec (.wsr 0 1 [0, 0, 0, 1]) State.reset = .next t :=
  ⟨⟨⟨_, rfl⟩, nofun, by
      rintro (h | ⟨_, h⟩ | ⟨_, _, h, hb⟩) <;> cases h
      exact Bool.noConfusion (hb : false = true)⟩,
    .inr (.inr ⟨_, _, rfl, rfl⟩), by decide, _, rfl⟩

theorem witness_TheQueueIsFirstInFirstOut : ∃ t, step (mk .idle [.req 0 frameDec1] []) = .next t := ⟨_, rfl⟩

theorem witness_AStepPresentsAtMostOneOutputOfEachKind :
    ∃ t, step (mk (.processing (.req 0 frameDec1)) [] []) = .next t := ⟨_, rfl⟩

/-- Both refusals of the equivalence. -/
theorem witness_OnlyTwoManagementCommandsAreRefused :
    step (mk .idle [.req 0 frameDec1] [.mg 2 0 3 .rhr]) = .refused .registerHandlerNotQuiescent ∧
      step (mk .idle [] [.mg 3 0 0 .unbound]) = .refused .reservedManagementOperation := ⟨rfl, rfl⟩

theorem witness_EveryWaitingItemIsServed : (mk .idle [.req 0 frameDec1, .mgmt (.create 2)] []).stimuli = [] := by
  decide +kernel

theorem witness_RequestsToDefaultHandlersAreIdempotent :
    (Instr.wmc 0 1 [0, 0, 0, 9, 2, 0xFF, 1]).request? = some ⟨0, 1, 15, [0, 0, 0, 9, 2, 0xFF, 1]⟩ ∧
      Registered State.reset 1 ∧ DefaultHandler (State.reset.slotAt 15) :=
  ⟨by decide, registered_reset, defaultHandler_reset 15⟩

/-- A second state in which another device holds other values. -/
theorem witness_ARequestSeesAndTouchesOnlyItsOwnDevice :
    (Instr.rhr 0 1 [0, 0, 0, 1]).request? = some ⟨0, 1, 3, [0, 0, 0, 1]⟩ ∧ Registered State.reset 1 ∧
      DefaultHandler (State.reset.slotAt 3) ∧ twoDevices.slotAt 3 = State.reset.slotAt 3 ∧
      twoDevices.mem.device? (1#8).toNat = State.reset.mem.device? (1#8).toNat :=
  ⟨by decide, registered_reset, defaultHandler_reset 3, rfl, by decide⟩

end Sys2Proof.Tests
end

/-! ### The store after one device's banks are replaced -/

namespace Sys2Proof

open Machine Safety

theorem Memory.bit?_putDevice_of_ne (m : Memory) {d e : Nat} (he : e ≠ d) (dev : Device) (b : BitBank) (a : Nat) :
    (m.putDevice d dev).bit? e b a = m.bit? e b a := by
  simp [Memory.bit?, Memory.device?_putDevice, he]

theorem Memory.bit?_putDevice_self (m : Memory) (d : Nat) (dev : Device) (b : BitBank) {a : Nat}
    (ha : a < Config.bankSize) : (m.putDevice d dev).bit? d b a = some (dev.readBit b a) := by
  simp [Memory.bit?, Memory.device?_putDevice, ha]

theorem Memory.bit?_putDevice_of_readBit {m : Memory} {d : Nat} {dev dev' : Device} (h : m.device? d = some dev)
    {b : BitBank} {a : Nat} (hr : dev'.readBit b a = dev.readBit b a) :
    (m.putDevice d dev').bit? d b a = m.bit? d b a := by
  simp [Memory.bit?, Memory.device?_putDevice, h, hr]

/-- Banks that read alike in every 16-bit cell leave every 16-bit cell of the store alone. -/
theorem Memory.word?_putDevice_of_readWord {m : Memory} {d : Nat} {dev dev' : Device} (h : m.device? d = some dev)
    (hr : ∀ b a, dev'.readWord b a = dev.readWord b a) (e : Nat) (b : WordBank) (a : Nat) :
    (m.putDevice d dev').word? e b a = m.word? e b a := by
  by_cases he : e = d
  · subst he; simp [Memory.word?, Memory.device?_putDevice, h, hr]
  · simp [Memory.word?, Memory.device?_putDevice, he]

/-- The frame of a coil write: replacing a registered device's banks by ones that differ only on a run of one 1-bit bank. -/
theorem onlyBitsWritten_putDevice {m : Memory} {d : Nat} {dev dev' : Device} (h : m.device? d = some dev)
    {b : BitBank} {run : Nat → Prop} (hw : ∀ c a, dev'.readWord c a = dev.readWord c a)
    (hb : ∀ c a, ¬ (c = b ∧ run a) → dev'.readBit c a = dev.readBit c a) :
    OnlyBitsWritten m (m.putDevice d dev') d b run := by
  refine ⟨Memory.devValid_putDevice_of_some h dev', Memory.word?_putDevice_of_readWord h hw, fun e c a hne => ?_⟩
  by_cases he : e = d
  · subst he
    exact Memory.bit?_putDevice_of_readBit h (hb c a fun hc => hne ⟨rfl, hc⟩)
  · exact Memory.bit?_putDevice_of_ne m he dev' c a

/-! ### A unicast request that succeeds -/

theorem exists_device_of_registered {s : State} {dev : Byte} (h : Registered s dev) :
    ∃ x, s.mem.device? dev.toNat = some x :=
  Option.isSome_iff_exists.1 h.2

/-- A request to a registered device whose handler answers `Success` (R124, R128): the store becomes the handler's, and the
handler's payload is the one response. -/
theorem exec_request_of_success {i : Instr} {p : Nat} {dev fc : Byte} {payload resp : List Byte} {s : State}
    {h : HandlerId} {m : Memory} (hi : i.request? = some ⟨p, dev, fc, payload⟩) (hreg : Registered s dev)
    (hslot : s.slotAt fc = h) (hrun : runHandler h s.mem dev.toNat payload = ⟨m, resp, .success⟩) :
    ∃ t, exec i s = .next t ∧ t.mem = m ∧ Answered s t p dev fc resp := by
  obtain ⟨hdev, hvalid⟩ := hreg
  have hproc : processRequest p (requestFrame dev fc payload) s = unicastOn p (requestFrame dev fc payload) s := by
    simp [processRequest, requestFrame, hdev, hvalid]
  have hdisp : s.dispatch fc dev.toNat payload = ⟨m, resp, .success⟩ := by
    rw [State.dispatch, hslot, hrun]
  obtain ⟨r, hr, hbytes⟩ := unicastOn_eq s p (requestFrame dev fc payload)
  simp only [requestFrame, hdisp, ↓reduceIte] at hr hbytes
  refine ⟨_, exec_request hi s, ?_⟩
  rw [hproc, requestFrame, hr]
  simp [Answered, ControlSame, hbytes]

/-! ### Write Single Coil -/

/-- Every address that a request can carry is one of the bank's (R38). -/
theorem field0_lt_bankSize (payload : List Byte) : field0 payload < Config.bankSize :=
  (readBE16 payload 0).isLt

/-- Write Single Coil on a registered device with a full payload (R111): no address and no value fails. -/
theorem handlerWsc_of_device {m : Memory} {d : Nat} {dev : Device} {payload : List Byte} (h : m.device? d = some dev)
    (hl : 4 ≤ payload.length) :
    handlerWsc m d payload =
      ⟨m.putDevice d (dev.writeBit .co (field0 payload) (decide (field1 payload ≠ 0))), payload.take 4, .success⟩ := by
  have hpro : prologue m d payload .b = .ok ⟨dev, readBE16 payload 0, readBE16 payload 2⟩ :=
    prologue_eq_ok_iff.2 ⟨h, hl, nofun, rfl, rfl⟩
  have hbit : (readBE16 payload 2 != 0#16) = decide (field1 payload ≠ 0) := by
    rw [field1, Bool.eq_iff_iff]; simp [← BitVec.toNat_inj]
  simp [handlerWsc, hpro, hbit, field0, echo]

/-- Settles O26: the handler succeeds whatever the address and the value are, and writes the one coil with the value's
normalized bit. -/
theorem writeSingleCoilStoresTheNormalizedBit : Obligations.WriteSingleCoilStoresTheNormalizedBit := by
  intro s p dev payload hreg hslot hl
  obtain ⟨banks, hbanks⟩ := exists_device_of_registered hreg
  obtain ⟨t, hexec, hmem, hans⟩ :=
    exec_request_of_success (i := .wsc p dev payload) rfl hreg hslot (handlerWsc_of_device hbanks hl)
  refine ⟨t, hexec, ?_, ?_, hans⟩ <;> rw [hmem]
  · rw [Memory.bit?_putDevice_self _ _ _ _ (field0_lt_bankSize payload), Device.readBit_writeBit, if_pos ⟨rfl, rfl⟩]
  · refine onlyBitsWritten_putDevice hbanks (fun c a => Device.readWord_writeBit ..) fun c a hne => ?_
    rw [Device.readBit_writeBit, if_neg hne]

end Sys2Proof

/-! ### The Frame Codec: what Decode answers and what each operation leaves alone -/

namespace Sys2Proof

open Machine Safety

theorem decodePacket_of_short {bytes : List Byte} (h : bytes.length < 5) : decodePacket bytes = .shortFrame :=
  if_pos h

theorem decodePacket_of_mismatch {bytes : List Byte} (hl : 5 ≤ bytes.length)
    (hc : readLE16 bytes (bytes.length - 2) ≠ crc16 (packetBody bytes)) : decodePacket bytes = .checksumMismatch :=
  (if_neg (Nat.not_lt.2 hl)).trans (if_pos hc)

theorem decodePacket_of_match {bytes : List Byte} (hl : 5 ≤ bytes.length)
    (hc : readLE16 bytes (bytes.length - 2) = crc16 (packetBody bytes)) :
    decodePacket bytes = .frame
      { deviceId := byteAt bytes 0, functionCode := byteAt bytes 1, payload := (packetBody bytes).drop 2,
        trailer := readLE16 bytes (bytes.length - 2) } :=
  (if_neg (Nat.not_lt.2 hl)).trans (if_neg (not_not.2 hc))

/-- R17: Decode on a port computes in that port's accumulator alone. -/
theorem crcAcc_decodeOn_of_ne (s : State) {p : Nat} {k : Codec} (h : k ≠ .port p) (bytes : List Byte) :
    (decodeOn p bytes s).crcAcc k = s.crcAcc k := by
  unfold decodeOn
  cases decodePacket bytes <;> simp [State.crcAcc_setCrcAcc, h]

/-- Only a framing failure is an event (R143). -/
theorem ev_decodeOn_of_frame (s : State) (p : Nat) {bytes : List Byte} {f : Frame} (h : decodePacket bytes = .frame f) :
    (decodeOn p bytes s).ev = s.ev := by
  simp [decodeOn, h]

/-- Settles O6: Decode's answer is `decodePacket`'s, which has one case for each outcome; the rest is Decode's frame. -/
theorem decodeTestsLengthThenChecksumThenSplits : Obligations.DecodeTestsLengthThenChecksumThenSplits := by
  intro s p bytes
  obtain ⟨hmem, hslot, hser, hpending, -, htx, hmg, hstimuli, hresult⟩ := decodeOn_frame s p bytes
  refine ⟨decodeOn p bytes s, rfl, fun hl => ?_, fun hl hc => ?_, fun hl hc => ⟨?_, ?_⟩,
    fun k hk => crcAcc_decodeOn_of_ne s hk bytes, hmem, ⟨hslot, hser, hpending, hstimuli⟩, htx, hmg⟩
  · rw [hresult, decodePacket_of_short hl]
  · rw [hresult, decodePacket_of_mismatch hl hc]
  · rw [hresult, decodePacket_of_match hl hc]; rfl
  · exact ev_decodeOn_of_frame s p (decodePacket_of_match hl hc)

/-- R17: Encode computes in the Serializer's accumulator alone. -/
theorem crcAcc_stampOn_of_ne (s : State) {k : Codec} (h : k ≠ .serializer) (f : Frame) :
    (stampOn f s).crcAcc k = s.crcAcc k := by
  simp [stampOn, State.crcAcc_setCrcAcc, h]

/-- Settles O7: the packet is `encodeFrame`'s; the checksum is written to the Serializer's accumulator and nowhere else. -/
theorem encodeAppendsTheFreshCrcLowByteFirst : Obligations.EncodeAppendsTheFreshCrcLowByteFirst := by
  intro s f
  refine ⟨(stampOn f s).returnValue (.packet (encodeFrame f)), encodeFrame f, rfl, rfl, rfl, length_encodeFrame f,
    fun k hk => ?_, ?_, ?_, ?_⟩
  · rw [State.crcAcc_returnValue, crcAcc_stampOn_of_ne s hk]
  · simp [stampOn]
  · simp [ControlSame, stampOn]
  · simp [OutputsSame, stampOn]

/-- Settles O8: a copy is the Frame itself, and only the returned value is new. -/
theorem copyReturnsAFrameWithTheSameFields : Obligations.CopyReturnsAFrameWithTheSameFields := by
  intro s f
  refine ⟨s.returnValue (.frame (copyFrame f)), copyFrame f, rfl, rfl, rfl, rfl, rfl, rfl, fun k => ?_, ?_, ?_, ?_⟩
  · exact State.crcAcc_returnValue s _ k
  · exact State.mem_returnValue s _
  · simp [ControlSame]
  · simp [OutputsSame]

end Sys2Proof

/-! ### A handler that raises, and the handler of an absent device -/

namespace Sys2Proof

open Machine Safety

/-- A unicast whose handler raises (R128, R148): the one response is the exception response. Whether the device exists is the
handler's own affair: UNICAST does not look it up (log entry 21). -/
theorem exec_unicast_of_raise {s : State} {f : Frame} {e : Exception} (he : e ≠ .success)
    (hrun : s.dispatch f.functionCode f.deviceId.toNat f.payload = .raise s.mem e) (p : Nat) :
    ∃ t, exec (.unicast p f) s = .next t ∧ t.mem = s.mem ∧
      Answered s t p f.deviceId (f.functionCode ||| 0x80#8) [excCode e] := by
  obtain ⟨r, hr, hbytes⟩ := unicastOn_eq s p f
  simp only [hrun, HandlerResult.raise, he, ↓reduceIte] at hr hbytes
  refine ⟨unicastOn p f s, rfl, ?_⟩
  rw [hr]
  simp [Answered, ControlSame, hbytes]

/-- The device lookup is the prologue's first test (R100 step 1). -/
theorem prologue_of_absent {m : Memory} {d : Nat} (hd : m.devValid d = false) (payload : List Byte) (fmt : Format) :
    prologue m d payload fmt = .error .slaveDeviceFailure :=
  prologue_eq_error_iff.2 (.inl ⟨by simpa [Memory.devValid_eq] using hd, rfl⟩)

/-- Every handler of the default set starts with the prologue, so an absent device stops each of them there. -/
theorem runHandler_of_absent {h : HandlerId} (hdef : DefaultHandler h) (hbound : h ≠ .unbound) {m : Memory} {d : Nat}
    (hd : m.devValid d = false) (payload : List Byte) : runHandler h m d payload = .raise m .slaveDeviceFailure := by
  have hpro := prologue_of_absent hd payload
  cases h with
  | unbound => exact absurd rfl hbound
  | rc => simp [runHandler, handlerRc, hpro]
  | rdi => simp [runHandler, handlerRdi, hpro]
  | rhr => simp [runHandler, handlerRhr, hpro]
  | rir => simp [runHandler, handlerRir, hpro]
  | wsc => simp [runHandler, handlerWsc, hpro]
  | wsr => simp [runHandler, handlerWsr, hpro]
  | wmc => simp [runHandler, handlerWmc, hpro]
  | wmr => simp [runHandler, handlerWmr, hpro]
  | ext k => exact absurd rfl (hdef k)

/-- Settles O35: the handler in the slot raises `SlaveDeviceFailure` at its device lookup, whose code is 4. -/
theorem aHandlerOnAnAbsentDeviceIsSlaveDeviceFailure : Obligations.AHandlerOnAnAbsentDeviceIsSlaveDeviceFailure := by
  intro s p f habsent hdef hbound
  exact exec_unicast_of_raise (by decide) (runHandler_of_absent hdef hbound habsent f.payload) p

end Sys2Proof

/-! ### The read-only banks under default handlers -/

namespace Sys2Proof

open Machine Safety

/-- Device `d` reads alike in its two read-only banks, `DI` and `IR` (R12, R117), in both stores. -/
def ReadOnlyBanksSame (d : Nat) (m m' : Memory) : Prop :=
  ∀ a, m'.bit? d .di a = m.bit? d .di a ∧ m'.word? d .ir a = m.word? d .ir a

theorem ReadOnlyBanksSame.refl (d : Nat) (m : Memory) : ReadOnlyBanksSame d m m := fun _ => ⟨rfl, rfl⟩

theorem ReadOnlyBanksSame.trans {d : Nat} {m m' m'' : Memory} (h : ReadOnlyBanksSame d m m')
    (h' : ReadOnlyBanksSame d m' m'') : ReadOnlyBanksSame d m m'' :=
  fun a => ⟨(h' a).1.trans (h a).1, (h' a).2.trans (h a).2⟩

theorem readOnlyBanksSame_of_device?_eq {d : Nat} {m m' : Memory} (h : m'.device? d = m.device? d) :
    ReadOnlyBanksSame d m m' := fun a => by simp [Memory.bit?, Memory.word?, h]

theorem readOnlyBanksSame_putDevice_of_ne {d e : Nat} (he : d ≠ e) (m : Memory) (dev : Device) :
    ReadOnlyBanksSame d m (m.putDevice e dev) :=
  readOnlyBanksSame_of_device?_eq (by rw [Memory.device?_putDevice, if_neg he])

theorem readOnlyBanksSame_dropDevice_of_ne {d e : Nat} (he : d ≠ e) (m : Memory) :
    ReadOnlyBanksSame d m (m.dropDevice e) :=
  readOnlyBanksSame_of_device?_eq (by rw [Memory.device?_dropDevice, if_neg he])

/-- Replacing a registered device's banks by ones with the same read-only cells changes no read-only cell of any device. -/
theorem readOnlyBanksSame_putDevice {m : Memory} {e : Nat} {dev dev' : Device} (h : m.device? e = some dev)
    (hdi : ∀ a, dev'.readBit .di a = dev.readBit .di a) (hir : ∀ a, dev'.readWord .ir a = dev.readWord .ir a) (d : Nat) :
    ReadOnlyBanksSame d m (m.putDevice e dev') := by
  by_cases hd : d = e
  · subst hd
    exact fun a => ⟨Memory.bit?_putDevice_of_readBit h (hdi a),
      by simp [Memory.word?, Memory.device?_putDevice, h, hir a]⟩
  · exact readOnlyBanksSame_putDevice_of_ne hd m dev'

/-- R117 for one run of a handler. -/
theorem readOnlyBanksSame_runHandler {h : HandlerId} (hh : DefaultHandler h) (m : Memory) (e : Nat) (payload : List Byte)
    (d : Nat) : ReadOnlyBanksSame d m (runHandler h m e payload).mem := by
  obtain hm | ⟨dev, dev', hdev, hm, -, hdi, hir, -⟩ := runHandler_default_cases hh m e payload <;> rw [hm]
  · exact .refl d m
  · exact readOnlyBanksSame_putDevice hdev hdi hir d

/-- R117 for a request: a broadcast is a sequence of such runs, a unicast is one, and a dropped request runs no handler. -/
theorem readOnlyBanksSame_processRequest {s : State} (hs : BaselineTable s) (p : Nat) (f : Frame) (d : Nat) :
    ReadOnlyBanksSame d s.mem (processRequest p f s).mem := by
  have hrun (m : Memory) (e : Nat) :
      ReadOnlyBanksSame d m (runHandler (s.slotAt f.functionCode) m e f.payload).mem :=
    readOnlyBanksSame_runHandler (hs f.functionCode) m e f.payload d
  obtain ⟨-, he⟩ | ⟨-, -, he⟩ | ⟨-, -, he⟩ := processRequest_cases s p f <;> rw [he]
  · rw [broadcastOn_eq]
    exact broadcast_keeps (P := ReadOnlyBanksSame d s.mem) (fun m e hm => hm.trans (hrun m e)) (.refl d s.mem) _
  · obtain ⟨r, hr, -⟩ := unicastOn_eq s p f
    rw [hr, respondOn_mem, State.mem_setMem]
    exact hrun s.mem f.deviceId.toNat
  · exact .refl d s.mem

/-- R117 for an item. A lifecycle command that writes the store creates a device that did not exist or removes one that then
no longer exists, so a device that exists before and after it is another one. -/
theorem readOnlyBanksSame_processItem {s : State} (hs : BaselineTable s) (it : Item) {d : Nat}
    (hbefore : s.mem.devValid d = true) (hafter : (processItem it s).mem.devValid d = true) :
    ReadOnlyBanksSame d s.mem (processItem it s).mem := by
  match it with
  | .req p f => exact readOnlyBanksSame_processRequest hs p f d
  | .mgmt (.create id) =>
    obtain ⟨he, -⟩ | ⟨he, -⟩ | ⟨he, -, habsent⟩ := createDeviceOn_cases s id <;> simp only [processItem, he]
    · exact .refl d s.mem
    · exact .refl d s.mem
    · have hne : d ≠ id.toNat := by
        rintro rfl
        simp [habsent] at hbefore
      exact readOnlyBanksSame_putDevice_of_ne hne s.mem Device.zero
  | .mgmt (.remove id) =>
    obtain ⟨he, -⟩ | ⟨he, -⟩ | ⟨he, -⟩ := removeDeviceOn_cases s id <;> simp only [processItem, he] at hafter ⊢
    · exact .refl d s.mem
    · have hne : d ≠ id.toNat := by
        rintro rfl
        simp [Memory.devValid_dropDevice] at hafter
      exact readOnlyBanksSame_dropDevice_of_ne hne s.mem
    · exact .refl d s.mem

/-! ### What a step can do to the store -/

@[simp] theorem mem_acceptNext (s : State) : (acceptNext s).mem = s.mem := by
  obtain ⟨it, rest, -, -, he⟩ | ⟨-, he⟩ := acceptNext_cases s <;> simp [he]

@[simp] theorem mem_submitOn (p : Nat) (f : Frame) (s : State) : (submitOn p f s).mem = s.mem := by
  unfold submitOn
  split <;> rfl

theorem mem_of_execReghandler {fc : Byte} {h : HandlerId} {s t : State} (ht : execReghandler fc h s = .next t) :
    t.mem = s.mem := by
  unfold execReghandler at ht
  split at ht <;> cases ht
  rfl

/-- The Serializer's move leaves the store alone or is the processing of the item in flight (R120, R122, R123). -/
theorem mem_of_serve {s t : State} (h : serve s = .next t) :
    t.mem = s.mem ∨ ∃ it, s.ser = .processing it ∧ t.mem = (processItem it s).mem := by
  obtain ⟨it, hit, he⟩ | ⟨-, he⟩ := serve_eq s <;> cases he.symm.trans h
  · exact .inr ⟨it, hit, rfl⟩
  · exact .inl (mem_acceptNext s)

/-- Meeting an input that is neither reset nor the Serializer's name leaves the store alone. -/
theorem mem_of_perform {x : Stimulus} {s t : State} (hrst : x ≠ .rst) (hser : x ≠ .serializer)
    (h : perform x s = .next t) : t.mem = s.mem := by
  obtain ⟨p, bytes, f, -, -, he⟩ | ⟨p, bytes, -, -, he⟩ | ⟨id, fc, g, -, he⟩ | ⟨id, fc, g, -, he⟩ |
    ⟨id, fc, g, -, he⟩ | ⟨id, fc, g, -, he⟩ | ⟨hx, -⟩ | ⟨k, r, -, he⟩ | ⟨hx, -⟩ := perform_eq x s
  · cases he.symm.trans h
    exact (mem_submitOn ..).trans (decodeOn_frame s p bytes).1
  · cases he.symm.trans h
    exact (decodeOn_frame s p bytes).1
  · cases he.symm.trans h
    rfl
  · cases he.symm.trans h
    rfl
  · exact mem_of_execReghandler (he.symm.trans h)
  · cases he.symm.trans h
  · exact absurd hx hser
  · obtain ⟨u, hu, ⟨w, rfl⟩ | ⟨v, rfl⟩⟩ := exec_instrOfCrc k r s <;> cases hu.symm.trans (he.symm.trans h)
    · exact State.mem_setCrcAcc s k w
    · exact State.mem_returnValue s v
  · exact absurd hx hrst

/-- A step that is not a reset leaves the store alone or is the processing of the item in flight (R120). -/
theorem mem_of_step {s t : State} (hrst : ¬ MeetsReset s) (h : step s = .next t) :
    t.mem = s.mem ∨ ∃ it, s.ser = .processing it ∧ t.mem = (processItem it s).mem := by
  by_cases hturn : SerializersTurn s
  · obtain ⟨l, he⟩ := step_of_serializersTurn hturn
    have hmove := mem_of_serve (he.symm.trans h)
    simpa [processItem_setStimuli] using hmove
  · obtain ⟨x, rest, hx, hser, -, he⟩ := step_of_not_serializersTurn hturn
    have hmeet := mem_of_perform (fun hr => hrst ⟨rest, hr ▸ hx⟩) hser (he.symm.trans h)
    exact .inl (hmeet.trans (State.mem_setStimuli s rest))

/-- Settles O53: only the processing of the item in flight writes the store, and under default handlers that leaves the
read-only banks of every surviving device alone. -/
theorem theReadOnlyBanksNeverChangeUnderDefaultHandlers :
    Obligations.TheReadOnlyBanksNeverChangeUnderDefaultHandlers := by
  intro s t d hs hrst hstep hbefore hafter
  obtain hm | ⟨it, -, hm⟩ := mem_of_step (fun ⟨rest, h⟩ => hrst rest h) hstep
  · exact hm ▸ ReadOnlyBanksSame.refl d s.mem
  · rw [hm] at hafter ⊢
    exact readOnlyBanksSame_processItem hs it hbefore hafter

end Sys2Proof

/-! ### The arbiter's queue: Submit and Accept -/

namespace Sys2Proof

open Machine Safety

@[simp] theorem waitingPorts_cons_req (p : Nat) (f : Frame) (l : List Item) :
    waitingPorts (.req p f :: l) = p :: waitingPorts l := rfl

@[simp] theorem waitingPorts_append (l l' : List Item) :
    waitingPorts (l ++ l') = waitingPorts l ++ waitingPorts l' :=
  List.filterMap_append ..

/-- R16, R121: a port is blocked while a Request of it waits in `pending`. -/
theorem portBlocked_eq_true_iff (s : State) (p : Nat) : s.portBlocked p = true ↔ p ∈ waitingPorts s.pending := by
  unfold State.portBlocked waitingPorts
  rw [List.any_eq_true, List.mem_filterMap]
  refine exists_congr fun it => and_congr_right fun _ => ?_
  cases it <;> simp

theorem submitOn_of_not_blocked {s : State} {p : Nat} (h : s.portBlocked p = false) (f : Frame) :
    submitOn p f s = s.setPending (s.pending ++ [.req p f]) := by
  simp [submitOn, h, enqueue]

theorem portBlocked_setPending_append_req (s : State) (p : Nat) (f : Frame) :
    (s.setPending (s.pending ++ [.req p f])).portBlocked p = true := by
  simp [portBlocked_eq_true_iff]

/-- Settles O38: Submit is enabled, and the Request it appends is what blocks the port. -/
theorem submitJoinsTheQueueAtTheTail : Obligations.SubmitJoinsTheQueueAtTheTail := by
  intro s p f hfree
  exact ⟨congrArg _ (submitOn_of_not_blocked hfree f), portBlocked_setPending_append_req s p f⟩

theorem acceptNext_of_idle_cons {s : State} {it : Item} {rest : List Item} (hser : s.ser = .idle)
    (hpending : s.pending = it :: rest) : acceptNext s = (s.setPending rest).setSer (.processing it) := by
  simp [acceptNext, hser, hpending]

/-- In a state of the invariant a port waits with one Request at most, so the port of the oldest item has no other. -/
theorem head_port_not_mem_waitingPorts {s : State} {p : Nat} {f : Frame} {rest : List Item} (hinv : Inv s)
    (hpending : s.pending = .req p f :: rest) : p ∉ waitingPorts rest := by
  obtain ⟨-, hnodup, -⟩ := hinv
  rw [hpending, waitingPorts_cons_req] at hnodup
  exact (List.nodup_cons.1 hnodup).1

/-- Settles O39: Accept is enabled, and by the invariant the accepted Request was the only one that blocked its port. -/
theorem acceptTakesTheOldestItem : Obligations.AcceptTakesTheOldestItem := by
  intro s it rest hser hpending
  refine ⟨(s.setPending rest).setSer (.processing it), congrArg _ (acceptNext_of_idle_cons hser hpending),
    rfl, rfl, rfl, rfl, ?_, rfl, rfl, fun k => by simp, ⟨rfl, rfl, rfl⟩, rfl, rfl⟩
  rintro p f rfl hinv
  rw [Bool.eq_false_iff, Ne, portBlocked_eq_true_iff]
  exact head_port_not_mem_waitingPorts hinv hpending

end Sys2Proof

/-! ### Processing a Request: the three tests of R124 -/

namespace Sys2Proof

open Machine Safety

theorem processRequest_of_broadcast {f : Frame} (hd : f.deviceId = Config.devBroadcast) (p : Nat) (s : State) :
    processRequest p f s = broadcastOn f s :=
  if_pos hd

theorem processRequest_of_registered {s : State} {f : Frame} (hreg : Registered s f.deviceId) (p : Nat) :
    processRequest p f s = unicastOn p f s :=
  (if_neg hreg.1).trans (if_pos hreg.2)

theorem processRequest_of_unknown {s : State} {f : Frame} (hd : f.deviceId ≠ Config.devBroadcast)
    (hv : s.mem.devValid f.deviceId.toNat = false) (p : Nat) : processRequest p f s = dropUnknownOn p f s :=
  (if_neg hd).trans (if_neg (by simp [hv]))

/-- The ids of a store in canonical form are 1 to 247 (R11, R13). -/
theorem Memory.devValid_eq_false_of_wf {m : Memory} (hm : m.wf) {d : Nat} (hd : 248 ≤ d) : m.devValid d = false := by
  rw [Memory.devValid_eq, Option.isSome_eq_false_iff, Option.isNone_iff_eq_none, Option.eq_none_iff_forall_ne_some]
  intro dev hdev
  have hmax : d ≤ 247 := (Memory.wf_device hm hdev).1.2
  omega

/-- Settles O34: the tests of R124 send such a request to DropUnknown, which emits the event; the invariant bounds the
registered ids. -/
theorem aRequestToAnUnknownDeviceIsDropped : Obligations.ARequestToAnUnknownDeviceIsDropped := by
  refine ⟨fun s i v hi hd hv => ?_, fun s dev hinv hdev => Memory.devValid_eq_false_of_wf hinv.1 hdev, fun s p f => rfl⟩
  rw [exec_request hi, processRequest_of_unknown hd hv]
  rfl

/-- Settles O42: the broadcast runs over the registered ids, which are 1 to 247 filtered by `dev_valid` at the start. -/
theorem broadcastRunsTheHandlerOnEveryRegisteredDevice :
    Obligations.BroadcastRunsTheHandlerOnEveryRegisteredDevice := by
  intro s f
  refine ⟨broadcastOn f s, rfl, ?_, ?_⟩
  · rw [broadcastOn_eq, State.mem_setMem, Memory.registered, List.foldl_filter]
    rfl
  · rw [broadcastOn_eq]
    exact ⟨⟨rfl, rfl, rfl, rfl⟩, State.crcAcc_setMem s _, ⟨rfl, rfl, rfl⟩, rfl⟩

/-- Settles O44: a unicast is one Respond on the handler's store, of the packet that the handler's outcome selects. -/
theorem unicastAnswersWithTheHandlersOutcome : Obligations.UnicastAnswersWithTheHandlersOutcome := by
  intro s p f res
  obtain ⟨r, hr, hbytes⟩ := unicastOn_eq s p f
  have hres : s.dispatch f.functionCode f.deviceId.toNat f.payload = res := rfl
  rw [hres] at hr hbytes
  refine ⟨unicastOn p f s, rfl, ?_, fun hok => ?_, fun hfail => ?_⟩ <;> rw [hr]
  · simp
  · rw [if_pos hok] at hbytes
    simp [Answered, ControlSame, hbytes]
  · rw [if_neg hfail] at hbytes
    simp [Answered, ControlSame, hbytes]

end Sys2Proof

/-! ### Device lifecycle -/

namespace Sys2Proof

open Machine Safety

theorem Memory.word?_putDevice_self (m : Memory) (d : Nat) (dev : Device) (b : WordBank) {a : Nat}
    (ha : a < Config.bankSize) : (m.putDevice d dev).word? d b a = some (dev.readWord b a) := by
  simp [Memory.word?, Memory.device?_putDevice, ha]

theorem Memory.bit?_dropDevice_self (m : Memory) (d : Nat) (b : BitBank) (a : Nat) :
    (m.dropDevice d).bit? d b a = none := by
  simp [Memory.bit?, Memory.device?_dropDevice]

theorem Memory.word?_dropDevice_self (m : Memory) (d : Nat) (b : WordBank) (a : Nat) :
    (m.dropDevice d).word? d b a = none := by
  simp [Memory.word?, Memory.device?_dropDevice]

/-- What a lifecycle command leaves alone: it writes the store at most, and returns its status on `MG` (R130, R131). -/
theorem returnStatus_setMem_frame (s : State) (m : Memory) (st : MgStatus) :
    ControlSame s ((s.setMem m).returnStatus st) ∧ AccumulatorsSame s ((s.setMem m).returnStatus st) ∧
      ((s.setMem m).returnStatus st).tx = s.tx ∧ ((s.setMem m).returnStatus st).ev = s.ev ∧
      ((s.setMem m).returnStatus st).result = s.result :=
  ⟨⟨rfl, rfl, rfl, rfl⟩, fun k => by simp, rfl, rfl, rfl⟩

/-- Settles O46: one case for each outcome of CreateDevice. -/
theorem createDeviceMakesAnAllZeroDevice : Obligations.CreateDeviceMakesAnAllZeroDevice := by
  intro s id
  obtain ⟨he, hrange⟩ | ⟨he, hrange, hv⟩ | ⟨he, hrange, hv⟩ := createDeviceOn_cases s id
  · exact ⟨_, _, congrArg Host.Outcome.next he, rfl, fun _ => ⟨rfl, rfl⟩, fun h => absurd h hrange,
      fun h => absurd h hrange, returnStatus_setMem_frame s s.mem _⟩
  · exact ⟨_, _, congrArg Host.Outcome.next he, rfl, fun h => absurd hrange h, fun _ _ => ⟨rfl, rfl⟩,
      fun _ h => by simp [hv] at h, returnStatus_setMem_frame s s.mem _⟩
  · refine ⟨_, _, congrArg Host.Outcome.next he, rfl, fun h => absurd hrange h, fun _ h => by simp [hv] at h,
      fun _ _ => ?_, returnStatus_setMem_frame s _ _⟩
    refine ⟨rfl, ?_, fun a ha b => ?_, fun a ha b => ?_, fun d hd => ?_⟩ <;>
      rw [State.mem_returnStatus, State.mem_setMem]
    · simp [Memory.devValid_putDevice]
    · rw [Memory.bit?_putDevice_self _ _ _ _ ha, Device.readBit_zero]
    · rw [Memory.word?_putDevice_self _ _ _ _ ha, Device.readWord_zero]
    · rw [Memory.device?_putDevice, if_neg hd]

/-- Settles O47: one case for each outcome of RemoveDevice. -/
theorem removeDeviceDeletesTheDevice : Obligations.RemoveDeviceDeletesTheDevice := by
  intro s id
  obtain ⟨he, hrange⟩ | ⟨he, hrange, hv⟩ | ⟨he, hrange, hv⟩ := removeDeviceOn_cases s id
  · exact ⟨_, _, congrArg Host.Outcome.next he, rfl, fun _ => ⟨rfl, rfl⟩, fun h => absurd h hrange,
      fun h => absurd h hrange, returnStatus_setMem_frame s s.mem _⟩
  · refine ⟨_, _, congrArg Host.Outcome.next he, rfl, fun h => absurd hrange h, fun _ h => by simp [hv] at h,
      fun _ _ => ?_, returnStatus_setMem_frame s _ _⟩
    refine ⟨rfl, ?_, fun b a => ?_, fun b a => ?_, fun d hd => ?_⟩ <;>
      rw [State.mem_returnStatus, State.mem_setMem]
    · simp [Memory.devValid_dropDevice]
    · exact Memory.bit?_dropDevice_self ..
    · exact Memory.word?_dropDevice_self ..
    · rw [Memory.device?_dropDevice, if_neg hd]
  · exact ⟨_, _, congrArg Host.Outcome.next he, rfl, fun h => absurd hrange h, fun _ _ => ⟨rfl, rfl⟩,
      fun _ h => by simp [hv] at h, returnStatus_setMem_frame s s.mem _⟩

end Sys2Proof

/-! ### Processing an item, and Complete -/

namespace Sys2Proof

open Machine Safety

/-- Settles O37: a Request executes as `Process` (R124), whose tests select the operation; O46 and O47 give the status of
a lifecycle command. -/
theorem processingIsBroadcastDropUnicastOrTheCommand :
    Obligations.ProcessingIsBroadcastDropUnicastOrTheCommand := by
  intro s p f id
  have hreq : exec (instrOfItem (.req p f)) s = .next (processRequest p f s) := exec_instrOfItem (.req p f) s
  refine ⟨fun hd => ?_, fun hd hv => ?_, fun hd hv => ?_, ?_, ?_⟩
  · rw [hreq, processRequest_of_broadcast hd]
    rfl
  · rw [hreq, processRequest_of_unknown hd hv]
    rfl
  · rw [hreq, processRequest_of_registered ⟨hd, hv⟩]
    rfl
  · obtain ⟨t, st, hexec, hmg, -⟩ := createDeviceMakesAnAllZeroDevice s id
    exact ⟨t, st, hexec, hexec, hmg⟩
  · obtain ⟨t, st, hexec, hmg, -⟩ := removeDeviceDeletesTheDevice s id
    exact ⟨t, st, hexec, hexec, hmg⟩

/-- Only a unicast presents a packet, and it presents one (R125, R127, R128). -/
theorem tx_processRequest (p : Nat) (f : Frame) (s : State) :
    (processRequest p f s).tx = s.tx ∨ ∃ x, (processRequest p f s).tx = s.tx ++ [x] := by
  obtain ⟨-, he⟩ | ⟨-, -, he⟩ | ⟨-, -, he⟩ := processRequest_cases s p f <;> rw [he]
  · exact .inl rfl
  · obtain ⟨r, hr, -⟩ := unicastOn_eq s p f
    rw [hr, respondOn_tx]
    exact .inr ⟨_, rfl⟩
  · exact .inl rfl

/-- Processing an item presents at most one response; a lifecycle command presents none (R123, R124). -/
theorem tx_processItem (it : Item) (s : State) :
    (processItem it s).tx = s.tx ∨ ∃ x, (processItem it s).tx = s.tx ++ [x] := by
  match it with
  | .req p f => exact tx_processRequest p f s
  | .mgmt (.create id) =>
    obtain ⟨he, -⟩ | ⟨he, -⟩ | ⟨he, -⟩ := createDeviceOn_cases s id <;> exact .inl (by rw [processItem, he]; rfl)
  | .mgmt (.remove id) =>
    obtain ⟨he, -⟩ | ⟨he, -⟩ | ⟨he, -⟩ := removeDeviceOn_cases s id <;> exact .inl (by rw [processItem, he]; rfl)

theorem completeCurrent_of_processing {s : State} {it : Item} (h : s.ser = .processing it) :
    completeCurrent s = returnToIdle (processItem it s) := by
  simp [completeCurrent, h]

/-- Settles O40: Complete and the item's instruction are the same processing of the item. -/
theorem completeProcessesTheItemAndReturnsToIdle : Obligations.CompleteProcessesTheItemAndReturnsToIdle := by
  intro s it hser
  exact ⟨returnToIdle (processItem it s), processItem it s, exec_instrOfItem it s,
    congrArg _ (completeCurrent_of_processing hser), rfl, rfl, rfl, tx_processItem it s⟩

end Sys2Proof

/-! ### Which move a step is -/

namespace Sys2Proof

open Machine Safety

theorem step_of_no_stimulus {s : State} (h : s.stimuli = []) : step s = serve s := by
  simp [step, move, h]

theorem step_of_blocked {s : State} {x : Stimulus} {rest : List Stimulus} (h : s.stimuli = x :: rest)
    (hx : MeetsBlockedPort s x) : step s = serve s := by
  simp [step, move, h, (ready_eq_false_iff x s).2 hx]

theorem step_of_ready {s : State} {x : Stimulus} {rest : List Stimulus} (h : s.stimuli = x :: rest)
    (hx : ready x s = true) : step s = perform x (s.setStimuli rest) := by
  simp [step, move, h, hx]

/-- The Serializer's move always goes on: no item of the queue is refused (R140). -/
theorem exists_serve_eq_next (s : State) : ∃ t, serve s = .next t := by
  obtain ⟨it, -, he⟩ | ⟨-, he⟩ := serve_eq s <;> exact ⟨_, he⟩

theorem stimuli_of_serve {s t : State} (h : serve s = .next t) : t.stimuli = s.stimuli := by
  have hback : serve s = .next (t.setStimuli s.stimuli) := serve_setStimuli s.stimuli h
  have heq : t = t.setStimuli s.stimuli := Host.Outcome.next.inj (h.symm.trans hback)
  rw [heq, State.stimuli_setStimuli]

/-- Settles O22: with the blocked input or without it the step is the Serializer's move, which leaves what comes next
alone. -/
theorem aBlockedPortTakesNoPacket : Obligations.ABlockedPortTakesNoPacket := by
  intro s x rest hx hblocked
  have hmeets : MeetsBlockedPort s x := by
    obtain ⟨p, bytes, rfl, hb⟩ | ⟨op, id, fc, h, rfl, hb⟩ := hblocked <;> exact hb
  obtain ⟨t, ht⟩ := exists_serve_eq_next s
  have hwithout : step (s.setStimuli []) = .next (t.setStimuli []) :=
    (step_of_no_stimulus rfl).trans (serve_setStimuli [] ht)
  refine ⟨t, t.setStimuli [], (step_of_blocked hx hmeets).trans ht, hwithout, ?_⟩
  rw [← stimuli_of_serve ht]
  rfl

/-! ### Refusals -/

/-- RegisterHandler is refused while the block is busy, and then only (R165). -/
theorem execReghandler_eq_refused_iff {fc : Byte} {h : HandlerId} {s : State} {r : Refusal} :
    execReghandler fc h s = .refused r ↔ s.quiescent = false ∧ r = .registerHandlerNotQuiescent := by
  unfold execReghandler
  cases s.quiescent <;> simp [eq_comm]

/-- The only inputs that are refused are the two management commands of R165 and R66. -/
theorem perform_eq_refused_iff {x : Stimulus} {s : State} {r : Refusal} :
    perform x s = .refused r ↔
      ∃ op id fc h, x = .mg op id fc h ∧
        ((op = 2#2 ∧ s.quiescent = false ∧ r = .registerHandlerNotQuiescent) ∨
          (op = 3#2 ∧ r = .reservedManagementOperation)) := by
  constructor
  · intro hr
    obtain ⟨p, bytes, f, -, -, he⟩ | ⟨p, bytes, -, -, he⟩ | ⟨id, fc, h, -, he⟩ | ⟨id, fc, h, -, he⟩ |
      ⟨id, fc, h, hx, he⟩ | ⟨id, fc, h, hx, he⟩ | ⟨-, he⟩ | ⟨k, q, -, he⟩ | ⟨-, he⟩ := perform_eq x s <;> rw [he] at hr
    · cases hr
    · cases hr
    · cases hr
    · cases hr
    · exact ⟨2#2, id, fc, h, hx, .inl ⟨rfl, execReghandler_eq_refused_iff.1 hr⟩⟩
    · cases hr
      exact ⟨3#2, id, fc, h, hx, .inr ⟨rfl, rfl⟩⟩
    · obtain ⟨t, ht⟩ := exists_serve_eq_next s
      cases ht.symm.trans hr
    · obtain ⟨t, ht, -⟩ := exec_instrOfCrc k q s
      cases ht.symm.trans hr
    · cases hr
  · rintro ⟨op, id, fc, h, rfl, ⟨rfl, hbusy, hr⟩ | ⟨rfl, rfl⟩⟩
    · exact execReghandler_eq_refused_iff.2 ⟨hbusy, hr⟩
    · rfl

/-- Settles O57: a refused step is a refused input, since the Serializer's move goes on; and a command is met at a free
`MG` port only. -/
theorem onlyTwoManagementCommandsAreRefused : Obligations.OnlyTwoManagementCommandsAreRefused := by
  intro s r
  constructor
  · intro hstep
    obtain ⟨x, rest, hx, hready, he⟩ | ⟨-, he⟩ := step_cases s <;> rw [he] at hstep
    · obtain ⟨op, id, fc, h, rfl, hrefused⟩ := perform_eq_refused_iff.1 hstep
      have hfree : s.mgBlocked = false := by simpa [ready] using hready
      exact ⟨op, id, fc, h, rest, hx, hfree, hrefused⟩
    · obtain ⟨t, ht⟩ := exists_serve_eq_next s
      cases ht.symm.trans hstep
  · rintro ⟨op, id, fc, h, rest, hx, hfree, hrefused⟩
    have hready : ready (.mg op id fc h) s = true := by simp [ready, hfree]
    rw [step_of_ready hx hready]
    exact perform_eq_refused_iff.2 ⟨op, id, fc, h, rfl, hrefused⟩

end Sys2Proof

/-! ### The queue drains -/

namespace Sys2Proof

open Machine Safety

theorem quiescent_eq_true_iff (s : State) : s.quiescent = true ↔ s.ser = .idle ∧ s.pending = [] := by
  simp [State.quiescent]

theorem run_succ_of_next {M : Host.Core} {s t : M.State} (h : M.step s = .next t) (k : Nat) :
    M.run (k + 1) s = M.run k t := by
  rw [Host.Core.run, h]

theorem run_succ_of_step {s t : State} (h : step s = .next t) (k : Nat) :
    Sys2Proof.core.run (k + 1) s = Sys2Proof.core.run k t :=
  run_succ_of_next (M := Sys2Proof.core) h k

/-- R122: without input a step in `IDLE` accepts the oldest item. -/
theorem step_of_idle_cons {s : State} {it : Item} {rest : List Item} (hin : s.stimuli = []) (hser : s.ser = .idle)
    (hpending : s.pending = it :: rest) : step s = .next ((s.setPending rest).setSer (.processing it)) := by
  rw [step_of_no_stimulus hin, serve_of_idle hser, acceptNext_of_idle_cons hser hpending]

/-- R123: without input a step in `PROCESSING` completes the item in flight; the items that wait still do. -/
theorem step_of_processing {s : State} {it : Item} (hin : s.stimuli = []) (hser : s.ser = .processing it) :
    ∃ t, step s = .next t ∧ t.stimuli = [] ∧ t.ser = .idle ∧ t.pending = s.pending := by
  obtain ⟨-, -, hpending, -, -, hstimuli⟩ := processItem_frame s it
  exact ⟨returnToIdle (processItem it s), (step_of_no_stimulus hin).trans (serve_of_processing hser),
    hstimuli.trans hin, rfl, hpending⟩

/-- R135: a run that is over stays where it is. -/
theorem run_of_runOver {s : State} (h : RunOver s) (k : Nat) : Sys2Proof.core.run k s = .next s := by
  obtain ⟨hin, hquiet⟩ := h
  obtain ⟨hser, hpending⟩ := (quiescent_eq_true_iff s).1 hquiet
  have hstep : step s = .next s := by
    rw [step_of_no_stimulus hin, serve_of_idle hser]
    simp [acceptNext, hser, hpending]
  induction k with
  | zero => rfl
  | succ k ih => rw [run_succ_of_step hstep, ih]

/-- R134 in `IDLE`: two steps, Accept and Complete, serve the oldest item and leave `IDLE` with the rest of the
queue. -/
theorem run_drains_of_idle {l : List Item} {s : State} (hin : s.stimuli = []) (hser : s.ser = .idle)
    (hpending : s.pending = l) {k : Nat} (hk : 2 * l.length ≤ k) :
    ∃ t, Sys2Proof.core.run k s = .next t ∧ RunOver t := by
  induction l generalizing s k with
  | nil =>
    have hover : RunOver s := ⟨hin, (quiescent_eq_true_iff s).2 ⟨hser, hpending⟩⟩
    exact ⟨s, run_of_runOver hover k, hover⟩
  | cons it rest ih =>
    rw [List.length_cons] at hk
    obtain ⟨j, rfl⟩ : ∃ j, k = j + 2 := ⟨k - 2, by omega⟩
    obtain ⟨t, hcomplete, ht, htser, htpending⟩ :=
      step_of_processing (s := (s.setPending rest).setSer (.processing it)) hin rfl
    rw [run_succ_of_step (step_of_idle_cons hin hser hpending), run_succ_of_step hcomplete]
    exact ih ht htser htpending (by omega)

/-- Settles O58: one step for an item in flight, then two for each item that waits. -/
theorem everyWaitingItemIsServed : Obligations.EveryWaitingItemIsServed := by
  intro s hin
  cases hser : s.ser with
  | idle => exact run_drains_of_idle hin hser rfl (by omega)
  | processing it =>
    obtain ⟨t, hcomplete, ht, htser, htpending⟩ := step_of_processing hin hser
    rw [run_succ_of_step hcomplete]
    exact run_drains_of_idle ht htser htpending le_rfl

end Sys2Proof

/-! ### A packet that does not decode -/

namespace Sys2Proof

open Machine Safety

/-- R91: the length test comes first, and it alone answers a short frame. -/
theorem decodePacket_eq_shortFrame_iff {bytes : List Byte} : decodePacket bytes = .shortFrame ↔ bytes.length < 5 := by
  refine ⟨fun h => ?_, decodePacket_of_short⟩
  by_contra hl
  by_cases hc : readLE16 bytes (bytes.length - 2) = crc16 (packetBody bytes)
  · cases (decodePacket_of_match (Nat.not_lt.1 hl) hc).symm.trans h
  · cases (decodePacket_of_mismatch (Nat.not_lt.1 hl) hc).symm.trans h

theorem ev_decodeOn_of_shortFrame (s : State) (p : Nat) {bytes : List Byte} (h : decodePacket bytes = .shortFrame) :
    (decodeOn p bytes s).ev = s.ev ++ [.shortFrame p] := by
  simp [decodeOn, h]

theorem ev_decodeOn_of_checksumMismatch (s : State) (p : Nat) {bytes : List Byte}
    (h : decodePacket bytes = .checksumMismatch) : (decodeOn p bytes s).ev = s.ev ++ [.checksumMismatch p] := by
  simp [decodeOn, h]

/-- R143: Decode is all that a packet without a Frame comes to; there is nothing to submit. -/
theorem receive_of_failure {bytes : List Byte}
    (h : decodePacket bytes = .shortFrame ∨ decodePacket bytes = .checksumMismatch) (p : Nat) (s : State) :
    receive p bytes s = .next (decodeOn p bytes s) := by
  unfold receive
  obtain h | h := h <;> rw [h] <;> rfl

/-- A port is blocked by what waits in `pending` and by nothing else. -/
theorem portBlocked_congr {s t : State} (h : t.pending = s.pending) (p : Nat) : t.portBlocked p = s.portBlocked p := by
  rw [State.portBlocked, h, State.portBlocked]

/-- Settles O20: at a free port the step is Decode alone, whose length test says which of the two events it emits; the
rest is Decode's frame. -/
theorem aFramingFailureOnlyEmitsItsEvent : Obligations.AFramingFailureOnlyEmitsItsEvent := by
  intro s p bytes rest hx hfree hfailure
  obtain ⟨hmem, hslot, hser, hpending, -, htx, hmg, hstimuli, -⟩ := decodeOn_frame (s.setStimuli rest) p bytes
  have hstep : step s = .next (decodeOn p bytes (s.setStimuli rest)) :=
    (step_of_ready hx (by simp [ready, hfree])).trans (receive_of_failure hfailure p _)
  refine ⟨_, hstep, fun hl => ?_, fun hl => ?_, hpending, (portBlocked_congr hpending p).trans hfree, hstimuli, hmem,
    hslot, hser, fun k hk => crcAcc_decodeOn_of_ne _ hk bytes, htx, hmg⟩
  · exact ev_decodeOn_of_shortFrame _ p (decodePacket_of_short hl)
  · have hlong : decodePacket bytes ≠ .shortFrame := fun h => Nat.not_lt.2 hl (decodePacket_eq_shortFrame_iff.1 h)
    exact ev_decodeOn_of_checksumMismatch _ p (hfailure.resolve_left hlong)

end Sys2Proof

/-! ### The function-code map and the encoder -/

namespace Sys2Proof

open Machine Safety

/-- The same row with the same free bits, for another port, device id and payload. -/
def Instr.readdress (p : Nat) (dev : Byte) (payload : List Byte) : Instr → Instr
  | .rc _ _ _ => .rc p dev payload
  | .rdi _ _ _ => .rdi p dev payload
  | .rhr _ _ _ => .rhr p dev payload
  | .rir _ _ _ => .rir p dev payload
  | .wsc _ _ _ => .wsc p dev payload
  | .wsr _ _ _ => .wsr p dev payload
  | .wmc _ _ _ => .wmc p dev payload
  | .wmr _ _ _ => .wmr p dev payload
  | .unbound00 _ _ _ => .unbound00 p dev payload
  | .unbound07 _ _ _ => .unbound07 p dev payload
  | .unbound08 _ _ low _ => .unbound08 p dev low payload
  | .unbound0C _ _ low _ => .unbound0C p dev low payload
  | .unbound0E _ _ _ => .unbound0E p dev payload
  | .unbound11 _ _ _ => .unbound11 p dev payload
  | .unbound12 _ _ low _ => .unbound12 p dev low payload
  | .unbound14 _ _ low _ => .unbound14 p dev low payload
  | .unbound18 _ _ low _ => .unbound18 p dev low payload
  | .unbound20 _ _ low _ => .unbound20 p dev low payload
  | .unbound40 _ _ low _ => .unbound40 p dev low payload
  | .unbound80 _ _ low _ => .unbound80 p dev low payload
  | i => i

/-- Which row a request selects, and with which free bits, depends on its function code alone (R60). -/
theorem instrOfRequest_eq_readdress (p : Nat) (dev fc : Byte) (payload : List Byte) :
    instrOfRequest p dev fc payload = (instrOfRequest 0 0#8 fc []).readdress p dev payload := by
  unfold instrOfRequest
  iterate 19 refine ite_both (fun (i j : Instr) => i = j.readdress p dev payload) _ rfl ?_
  rfl

theorem instrOfRequest_of_row {fc : Byte} {i : Instr} (h : instrOfRequest 0 0#8 fc [] = i) (p : Nat) (dev : Byte)
    (payload : List Byte) : instrOfRequest p dev fc payload = i.readdress p dev payload :=
  h ▸ instrOfRequest_eq_readdress p dev fc payload

/-- The map selects the row whose view the request is. A row with free bits needs its own look at each of its codes. -/
theorem instrOfRequest_of_request? {i : Instr} {v : RequestView} (h : i.request? = some v) :
    instrOfRequest v.port v.dev v.fc v.payload = i := by
  cases i with
  | unbound08 p dev low payload =>
    have hrow : ∀ w : BitVec 2, instrOfRequest 0 0#8 (0x08#8 ||| w.setWidth 8) [] = .unbound08 0 0#8 w [] := by decide
    cases h; exact instrOfRequest_of_row (hrow low) p dev payload
  | unbound0C p dev low payload =>
    have hrow : ∀ w : BitVec 1, instrOfRequest 0 0#8 (0x0C#8 ||| w.setWidth 8) [] = .unbound0C 0 0#8 w [] := by decide
    cases h; exact instrOfRequest_of_row (hrow low) p dev payload
  | unbound12 p dev low payload =>
    have hrow : ∀ w : BitVec 1, instrOfRequest 0 0#8 (0x12#8 ||| w.setWidth 8) [] = .unbound12 0 0#8 w [] := by decide
    cases h; exact instrOfRequest_of_row (hrow low) p dev payload
  | unbound14 p dev low payload =>
    have hrow : ∀ w : BitVec 2, instrOfRequest 0 0#8 (0x14#8 ||| w.setWidth 8) [] = .unbound14 0 0#8 w [] := by decide
    cases h; exact instrOfRequest_of_row (hrow low) p dev payload
  | unbound18 p dev low payload =>
    have hrow : ∀ w : BitVec 3, instrOfRequest 0 0#8 (0x18#8 ||| w.setWidth 8) [] = .unbound18 0 0#8 w [] := by decide
    cases h; exact instrOfRequest_of_row (hrow low) p dev payload
  | unbound20 p dev low payload =>
    have hrow : ∀ w : BitVec 5, instrOfRequest 0 0#8 (0x20#8 ||| w.setWidth 8) [] = .unbound20 0 0#8 w [] := by
      decide +kernel
    cases h; exact instrOfRequest_of_row (hrow low) p dev payload
  | unbound40 p dev low payload =>
    have hrow : ∀ w : BitVec 6, instrOfRequest 0 0#8 (0x40#8 ||| w.setWidth 8) [] = .unbound40 0 0#8 w [] := by
      decide +kernel
    cases h; exact instrOfRequest_of_row (hrow low) p dev payload
  | unbound80 p dev low payload =>
    have hrow : ∀ w : BitVec 7, instrOfRequest 0 0#8 (0x80#8 ||| w.setWidth 8) [] = .unbound80 0 0#8 w [] := by
      decide +kernel
    cases h; exact instrOfRequest_of_row (hrow low) p dev payload
  | _ => cases h <;> simp [instrOfRequest]

/-- Settles O14: the row that the map selects has the view, and the map finds back every row that has it. -/
theorem everyFunctionCodeSelectsItsRow : Obligations.EveryFunctionCodeSelectsItsRow := fun p dev fc payload =>
  ⟨request?_instrOfRequest p dev fc payload, fun _ h => instrOfRequest_of_request? h⟩

/-- Of a request only the payload can be ill-formed: Decode returns no empty one (R91). -/
theorem wellFormed_iff_of_request? {i : Instr} {v : RequestView} (h : i.request? = some v) :
    i.wellFormed = true ↔ v.payload ≠ [] := by
  cases i <;> cases h <;> simp [Instr.wellFormed]

theorem encode_of_request? {i : Instr} {v : RequestView} (h : i.request? = some v) :
    encode i = some (.packet v.port (packetOf v.dev v.fc v.payload)) := by
  simp [encode, h]

theorem encode_of_not_request {i : Instr} (h : i.request? = none) : encode i = i.command? := by
  simp [encode, h]

/-- The packet of a request decodes to its Frame. -/
theorem decodePacket_packetOf {payload : List Byte} (h : payload ≠ []) (dev fc : Byte) :
    decodePacket (packetOf dev fc payload) = .frame ⟨dev, fc, payload, crc16 (dev :: fc :: payload)⟩ :=
  (decodePacket_stamped dev fc payload).trans (if_neg h)

theorem decode_packet_of_request? {i : Instr} {v : RequestView} (h : i.request? = some v) (hp : v.payload ≠ []) :
    decode (.packet v.port (packetOf v.dev v.fc v.payload)) = .ok i :=
  decode_packet_eq_ok_iff.2 ⟨_, decodePacket_packetOf hp v.dev v.fc, (instrOfRequest_of_request? h).symm⟩

/-- R66: a management tuple stands for the command that it is the tuple of. -/
theorem decode_of_command? {i : Instr} {e : Encoded} (h : i.command? = some e) : decode e = .ok i := by
  cases i <;> cases h <;> rfl

/-- Settles O12: a request comes back through its packet and the function-code map, a management command through its
tuple; nothing else has an encoding. -/
theorem decodeOfEncodeIsTheInstruction : Obligations.DecodeOfEncodeIsTheInstruction := by
  intro i hwf
  cases hreq : i.request? with
  | some v =>
    rw [encode_of_request? hreq]
    refine ⟨fun e he => ?_, by simp⟩
    cases he
    exact decode_packet_of_request? hreq ((wellFormed_iff_of_request? hreq).1 hwf)
  | none =>
    rw [encode_of_not_request hreq]
    exact ⟨fun e he => decode_of_command? he, by simp⟩

/-- Settles O13: the packet is the one of the Frame that Decode returned, which has a payload. -/
theorem encodeOfADecodedPacketIsThePacket : Obligations.EncodeOfADecodedPacketIsThePacket := by
  intro p bytes i hdec
  obtain ⟨f, hf, rfl⟩ := decode_packet_eq_ok_iff.1 hdec
  obtain ⟨⟨hpayload, -⟩, henc⟩ := decodePacket_frame hf
  have hreq := request?_instrOfFrame p f
  refine ⟨(wellFormed_iff_of_request? hreq).2 hpayload, ?_⟩
  rw [encode_of_request? hreq, ← encodeFrame_eq_packetOf, henc]

/-! ### Packets and tuples written out from the spec -/

theorem decode_packet_of_short {bytes : List Byte} (h : decodePacket bytes = .shortFrame) (p : Nat) :
    decode (.packet p bytes) = .error .shortFrame := by
  simp [decode, h]

theorem decode_packet_of_mismatch {bytes : List Byte} (h : decodePacket bytes = .checksumMismatch) (p : Nat) :
    decode (.packet p bytes) = .error .checksumMismatch := by
  simp [decode, h]

/-- Settles O15: what Decode makes of each packet is evaluated, with its Frame written out; the row follows. -/
theorem sampleEncodingsDecode : Obligations.SampleEncodingsDecode := by
  refine ⟨decode_packet_eq_ok_iff.2 ⟨⟨1, 3, [0x00, 0x00, 0x00, 0x0A], 0xCDC5⟩, ?_, rfl⟩,
    decode_packet_eq_ok_iff.2 ⟨⟨1, 15, [0x00, 0x13, 0x00, 0x0A, 0x02, 0xCD, 0x01], 0xCB72⟩, ?_, rfl⟩,
    decode_packet_eq_ok_iff.2 ⟨⟨1, 0x83, [0x00], 0x3041⟩, ?_, rfl⟩,
    decode_packet_of_short (decodePacket_of_short (by decide)) 0, decode_packet_of_mismatch ?_ 0, rfl, rfl⟩
  all_goals decide +kernel

/-! ### The codec's round trip -/

/-- Settles O10: what Decode makes of a stamped packet, and what it says of the packet it accepted. -/
theorem codecRoundTripsEveryFrameWithAPayload : Obligations.CodecRoundTripsEveryFrameWithAPayload :=
  ⟨fun f hf => decodePacket_packetOf hf f.deviceId f.functionCode,
    fun f hf => (decodePacket_stamped f.deviceId f.functionCode f.payload).trans (if_pos hf),
    fun _ _ h => (decodePacket_frame h).2⟩

/-- What Decode accepts is long enough and carries its own checksum (R91). -/
theorem stamped_of_decodePacket_frame {bytes : List Byte} {f : Frame} (h : decodePacket bytes = .frame f) :
    5 ≤ bytes.length ∧ readLE16 bytes (bytes.length - 2) = crc16 (packetBody bytes) := by
  have hlong : 5 ≤ bytes.length := by
    by_contra hl
    cases (decodePacket_of_short (Nat.not_le.1 hl)).symm.trans h
  refine ⟨hlong, ?_⟩
  by_contra hc
  cases (decodePacket_of_mismatch hlong hc).symm.trans h

/-- Settles O11: the body fixes the one trailer that is accepted. -/
theorem everyOtherTrailerIsAChecksumMismatch : Obligations.EveryOtherTrailerIsAChecksumMismatch := by
  intro body x y f hx hne
  obtain ⟨hlong, hcrc⟩ := stamped_of_decodePacket_frame hx
  rw [readLE16_stamped, packetBody_stamped] at hcrc
  refine decodePacket_of_mismatch (by simpa [le16] using hlong) ?_
  rw [readLE16_stamped, packetBody_stamped, ← hcrc]
  exact hne

end Sys2Proof

/-! ### The invariant -/

namespace Sys2Proof

open Machine Safety

/-- The part of the invariant that speaks of the queue and of the item in flight. -/
def ArbiterInv (s : State) : Prop :=
  (waitingPorts s.pending).Nodup ∧ openCommands s ≤ 1 ∧ (∀ it ∈ s.pending, ItemDecoded it) ∧
    ∀ it, s.cur = some it → ItemDecoded it

/-- The canonical form of the ports' accumulators (R17; log entry 16). -/
def CanonicalAccumulators (l : List (Nat × Word)) : Prop :=
  Assoc.rising l ∧ ∀ e ∈ l, e.2 ≠ Config.crcInit

theorem inv_iff (s : State) : Inv s ↔ s.mem.wf ∧ ArbiterInv s ∧ CanonicalAccumulators s.crcPort :=
  ⟨fun ⟨hmem, hports, hopen, hqueue, hcur, hacc⟩ => ⟨hmem, ⟨hports, hopen, hqueue, hcur⟩, hacc⟩,
    fun ⟨hmem, ⟨hports, hopen, hqueue, hcur⟩, hacc⟩ => ⟨hmem, hports, hopen, hqueue, hcur, hacc⟩⟩

/-- Settles O51: one zeroed device, an empty queue, nothing in flight and no accumulator listed. -/
theorem resetMeetsTheInvariant : Obligations.ResetMeetsTheInvariant :=
  ⟨(by decide : Memory.reset.wf), List.nodup_nil, Nat.zero_le 1, nofun, nofun, List.Pairwise.nil, nofun⟩

/-! ### The accumulators -/

theorem canonicalAccumulators_write {l : List (Nat × Word)} (h : CanonicalAccumulators l) (p : Nat) (w : Word) :
    CanonicalAccumulators (Cells.write Config.crcInit l p w) := by
  obtain ⟨hrising, hlisted⟩ := h
  unfold Cells.write
  split
  · exact ⟨Assoc.rising_drop hrising, fun e he => hlisted e (Assoc.mem_drop.1 he).1⟩
  · refine ⟨Assoc.rising_put hrising, fun e he => ?_⟩
    obtain rfl | he := Assoc.mem_put he
    · assumption
    · exact hlisted e he

theorem canonicalAccumulators_setCrcAcc {s : State} (h : CanonicalAccumulators s.crcPort) (k : Codec) (w : Word) :
    CanonicalAccumulators (s.setCrcAcc k w).crcPort := by
  cases k with
  | port p => exact canonicalAccumulators_write h p w
  | serializer => exact h

theorem canonicalAccumulators_decodeOn {s : State} (h : CanonicalAccumulators s.crcPort) (p : Nat) (bytes : List Byte) :
    CanonicalAccumulators (decodeOn p bytes s).crcPort := by
  unfold decodeOn
  cases decodePacket bytes with
  | shortFrame => exact h
  | checksumMismatch => exact canonicalAccumulators_setCrcAcc h (.port p) _
  | frame f => exact canonicalAccumulators_setCrcAcc h (.port p) _

/-! ### The queue and the item in flight -/

theorem arbiterInv_congr {s t : State} (hser : t.ser = s.ser) (hpending : t.pending = s.pending) (h : ArbiterInv s) :
    ArbiterInv t := by
  rwa [ArbiterInv, openCommands, State.cur, hser, hpending]

/-- R133: `MG` is blocked exactly while a lifecycle command is outstanding. -/
theorem openCommands_eq_zero_iff (s : State) : openCommands s = 0 ↔ s.mgBlocked = false := by
  unfold openCommands State.mgBlocked
  cases s.ser with
  | idle => simp [List.countP_eq_zero]
  | processing it => cases it <;> simp [List.countP_eq_zero, Item.isMgmt]

/-- Complete (R123): the item in flight is gone and the queue is as it was. -/
theorem arbiterInv_of_idle {s t : State} (hser : t.ser = .idle) (hpending : t.pending = s.pending) (h : ArbiterInv s) :
    ArbiterInv t := by
  obtain ⟨hports, hopen, hqueue, -⟩ := h
  refine ⟨by rwa [hpending], ?_, by rwa [hpending], by simp [State.cur, hser]⟩
  have hle : s.pending.countP Item.isMgmt ≤ openCommands s := Nat.le_add_right ..
  simpa [openCommands, hser, hpending] using hle.trans hopen

/-- Accept (R122): the oldest item leaves the queue and is in flight. -/
theorem arbiterInv_acceptNext {s : State} (h : ArbiterInv s) : ArbiterInv (acceptNext s) := by
  obtain ⟨it, rest, hser, hpending, he⟩ | ⟨-, he⟩ := acceptNext_cases s <;> rw [he]
  · obtain ⟨hports, hopen, hqueue, -⟩ := h
    rw [hpending] at hports hqueue
    refine ⟨?_, ?_, fun e he => hqueue e (List.mem_cons_of_mem it he), ?_⟩
    · cases it with
      | req p f => exact (List.nodup_cons.1 hports).2
      | mgmt c => exact hports
    · simpa [openCommands, hser, hpending, List.countP_cons] using hopen
    · rintro e ⟨⟩
      exact hqueue it List.mem_cons_self
  · exact h

@[simp] theorem waitingPorts_nil : waitingPorts [] = [] := rfl

/-- Submit (R121) of a Frame that Decode returned: a port that is not blocked has no item in the queue. -/
theorem arbiterInv_submitOn {s : State} {f : Frame} (hf : decodedFrame f) (h : ArbiterInv s) (p : Nat) :
    ArbiterInv (submitOn p f s) := by
  by_cases hblocked : s.portBlocked p = true
  · rwa [submitOn, if_pos hblocked]
  · rw [submitOn_of_not_blocked (Bool.eq_false_of_not_eq_true hblocked)]
    rw [portBlocked_eq_true_iff] at hblocked
    obtain ⟨hports, hopen, hqueue, hcur⟩ := h
    refine ⟨?_, ?_, ?_, hcur⟩
    · simpa [List.nodup_append, hports] using fun q hq => ne_of_mem_of_not_mem hq hblocked
    · simpa [openCommands, List.countP_append, Item.isMgmt] using hopen
    · simpa [or_imp, forall_and, ItemDecoded] using ⟨hqueue, hf⟩

/-- A lifecycle command joins the queue (R133) while none is outstanding. -/
theorem arbiterInv_enqueue_mgmt {s : State} (hfree : s.mgBlocked = false) (h : ArbiterInv s) (c : Lifecycle) :
    ArbiterInv (enqueue (.mgmt c) s) := by
  have hnone := (openCommands_eq_zero_iff s).2 hfree
  obtain ⟨hports, -, hqueue, hcur⟩ := h
  refine ⟨?_, ?_, ?_, hcur⟩
  · simpa [enqueue, waitingPorts] using hports
  · have hone : openCommands (enqueue (.mgmt c) s) = openCommands s + 1 := by
      simp [openCommands, enqueue, List.countP_append, Item.isMgmt]
      omega
    omega
  · simpa [enqueue, or_imp, forall_and, ItemDecoded] using hqueue

/-! ### Every step -/

theorem inv_serve {s t : State} (h : Inv s) (hs : serve s = .next t) : Inv t := by
  obtain ⟨hmem, harb, hacc⟩ := (inv_iff s).1 h
  obtain ⟨it, hit, he⟩ | ⟨-, he⟩ := serve_eq s <;> cases he.symm.trans hs
  · obtain ⟨-, -, hpending, hcrc, -⟩ := processItem_frame s it
    refine (inv_iff _).2 ⟨processItem_wf s it hmem, arbiterInv_of_idle rfl hpending harb, ?_⟩
    exact hcrc ▸ hacc
  · refine (inv_iff _).2 ⟨by rwa [mem_acceptNext], arbiterInv_acceptNext harb, ?_⟩
    obtain ⟨it, rest, -, -, he⟩ | ⟨-, he⟩ := acceptNext_cases s <;> rwa [he]

theorem inv_decodeOn {s : State} (h : Inv s) (p : Nat) (bytes : List Byte) : Inv (decodeOn p bytes s) := by
  obtain ⟨hmem, harb, hacc⟩ := (inv_iff s).1 h
  obtain ⟨hmem', -, hser, hpending, -⟩ := decodeOn_frame s p bytes
  exact (inv_iff _).2 ⟨hmem' ▸ hmem, arbiterInv_congr hser hpending harb, canonicalAccumulators_decodeOn hacc p bytes⟩

theorem crcPort_submitOn (p : Nat) (f : Frame) (s : State) : (submitOn p f s).crcPort = s.crcPort := by
  unfold submitOn
  split <;> rfl

theorem inv_submitOn {s : State} (h : Inv s) {f : Frame} (hf : decodedFrame f) (p : Nat) : Inv (submitOn p f s) := by
  obtain ⟨hmem, harb, hacc⟩ := (inv_iff s).1 h
  exact (inv_iff _).2 ⟨by rwa [mem_submitOn], arbiterInv_submitOn hf harb p, by rwa [crcPort_submitOn]⟩

theorem inv_enqueue_mgmt {s : State} (h : Inv s) (hfree : s.mgBlocked = false) (c : Lifecycle) :
    Inv (enqueue (.mgmt c) s) := by
  obtain ⟨hmem, harb, hacc⟩ := (inv_iff s).1 h
  exact (inv_iff _).2 ⟨hmem, arbiterInv_enqueue_mgmt hfree harb c, hacc⟩

theorem inv_setCrcAcc {s : State} (h : Inv s) (k : Codec) (w : Word) : Inv (s.setCrcAcc k w) := by
  obtain ⟨hmem, harb, hacc⟩ := (inv_iff s).1 h
  exact (inv_iff _).2 ⟨by rwa [State.mem_setCrcAcc],
    arbiterInv_congr (State.ser_setCrcAcc s k w) (State.pending_setCrcAcc s k w) harb,
    canonicalAccumulators_setCrcAcc hacc k w⟩

/-- What meeting an input comes to when it is not refused. -/
theorem perform_next_cases {x : Stimulus} {s t : State} (h : perform x s = .next t) :
    (∃ p bytes f, decodePacket bytes = .frame f ∧ t = submitOn p f (decodeOn p bytes s)) ∨
      (∃ p bytes, t = decodeOn p bytes s) ∨
      (∃ op id fc g c, x = .mg op id fc g ∧ t = enqueue (.mgmt c) s) ∨
      (∃ fc g, t = (s.setSlot fc g).returnStatus .ok) ∨ serve s = .next t ∨ (∃ k w, t = s.setCrcAcc k w) ∨
      (∃ v, t = s.returnValue v) ∨ (x = .rst ∧ t = resetBlock s) := by
  obtain ⟨p, bytes, f, -, hf, he⟩ | ⟨p, bytes, -, -, he⟩ | ⟨id, fc, g, hx, he⟩ | ⟨id, fc, g, hx, he⟩ |
    ⟨id, fc, g, -, he⟩ | ⟨id, fc, g, -, he⟩ | ⟨-, he⟩ | ⟨k, r, -, he⟩ | ⟨hx, he⟩ := perform_eq x s <;> rw [he] at h
  · cases h
    exact .inl ⟨p, bytes, f, hf, rfl⟩
  · cases h
    exact .inr (.inl ⟨p, bytes, rfl⟩)
  · cases h
    exact .inr (.inr (.inl ⟨_, _, _, _, _, hx, rfl⟩))
  · cases h
    exact .inr (.inr (.inl ⟨_, _, _, _, _, hx, rfl⟩))
  · unfold execReghandler at h
    split at h <;> cases h
    exact .inr (.inr (.inr (.inl ⟨fc, g, rfl⟩)))
  · cases h
  · exact .inr (.inr (.inr (.inr (.inl h))))
  · obtain ⟨u, hu, ⟨w, rfl⟩ | ⟨v, rfl⟩⟩ := exec_instrOfCrc k r s <;> cases hu.symm.trans h
    · exact .inr (.inr (.inr (.inr (.inr (.inl ⟨k, w, rfl⟩)))))
    · exact .inr (.inr (.inr (.inr (.inr (.inr (.inl ⟨v, rfl⟩))))))
  · cases h
    exact .inr (.inr (.inr (.inr (.inr (.inr (.inr ⟨hx, rfl⟩))))))

/-- Meeting an input keeps the invariant: a lifecycle command is met at a free `MG` port only. -/
theorem inv_perform {x : Stimulus} {s t : State} (h : Inv s) (hready : ready x s = true) (ht : perform x s = .next t) :
    Inv t := by
  obtain ⟨p, bytes, f, hf, rfl⟩ | ⟨p, bytes, rfl⟩ | ⟨op, id, fc, g, c, rfl, rfl⟩ | ⟨fc, g, rfl⟩ | hserve | ⟨k, w, rfl⟩ |
    ⟨v, rfl⟩ | ⟨-, rfl⟩ := perform_next_cases ht
  · exact inv_submitOn (inv_decodeOn h p bytes) (decodePacket_frame hf).1 p
  · exact inv_decodeOn h p bytes
  · exact inv_enqueue_mgmt h (by simpa [ready] using hready) c
  · exact h
  · exact inv_serve h hserve
  · exact inv_setCrcAcc h k w
  · exact h
  · exact resetMeetsTheInvariant

/-- Settles O52: a step is the meeting of a ready input or the Serializer's move, and each keeps the invariant. -/
theorem everyStepKeepsTheInvariant : Obligations.EveryStepKeepsTheInvariant := by
  intro s t h hstep
  obtain ⟨x, rest, -, hready, he⟩ | ⟨-, he⟩ := step_cases s <;> rw [he] at hstep
  · exact inv_perform (s := s.setStimuli rest) h hready hstep
  · exact inv_serve h hstep

end Sys2Proof

/-! ### Steps at a named agent's turn -/

namespace Sys2Proof

open Machine Safety

/-- Nothing comes next, or the schedule names the Serializer: the step is the Serializer's move (log entry 2). -/
theorem step_of_serializer_named {s : State} {rest : List Stimulus}
    (h : s.stimuli = [] ∧ rest = [] ∨ s.stimuli = .serializer :: rest) : step s = serve (s.setStimuli rest) := by
  obtain ⟨h, rfl⟩ | h := h
  · rw [step_of_no_stimulus h, ← h, State.setStimuli_self]
  · exact step_of_ready h rfl

/-- R123: with an item in flight that move is the processing of the item and the return. -/
theorem step_of_serializer_named_of_processing {s : State} {rest : List Stimulus} {it : Item}
    (h : s.stimuli = [] ∧ rest = [] ∨ s.stimuli = .serializer :: rest) (hser : s.ser = .processing it) :
    step s = .next (returnToIdle (processItem it (s.setStimuli rest))) := by
  rw [step_of_serializer_named h]
  exact serve_of_processing hser

/-- Settles O16: the instruction that the packet decodes to is the one of the Request in flight. -/
theorem aStepRunsTheDecodedInstruction : Obligations.AStepRunsTheDecodedInstruction := by
  intro s p bytes f i rest hturn hf hser hdec
  obtain ⟨g, hg, rfl⟩ := decode_packet_eq_ok_iff.1 hdec
  cases hf.symm.trans hg
  have hexec : exec (instrOfFrame p f) { s with stimuli := rest } =
      .next (processItem (.req p f) (s.setStimuli rest)) :=
    exec_instrOfItem (.req p f) _
  rw [step_of_serializer_named_of_processing hturn hser, hexec]
  rfl

/-- Settles O17: none of these inputs waits, and meeting it is the execution of its instruction. -/
theorem aStepRunsTheInstructionOfAStimulus : Obligations.AStepRunsTheInstructionOfAStimulus := by
  intro s rest
  refine ⟨fun k h => ?_, fun k b h => ?_, fun k h => ?_, fun k bytes h => ?_, fun id fc g h hfree => ?_,
    fun id fc g h hfree => ?_⟩
  · exact step_of_ready h rfl
  · exact step_of_ready h rfl
  · exact step_of_ready h rfl
  · exact step_of_ready h rfl
  · exact step_of_ready h (by simp [ready, hfree])
  · exact step_of_ready h (by simp [ready, hfree])

/-- Settles O18: processing a lifecycle command is the execution of its instruction. -/
theorem aStepRunsTheLifecycleCommandInFlight : Obligations.AStepRunsTheLifecycleCommandInFlight := by
  intro s id rest hturn
  exact ⟨fun hser => ⟨_, rfl, step_of_serializer_named_of_processing hturn hser⟩,
    fun hser => ⟨_, rfl, step_of_serializer_named_of_processing hturn hser⟩⟩

/-! ### Inputs that join the queue -/

/-- A packet with a Frame on a free port: Decode, then the Request joins the queue (R22, R121; log entry 19). -/
theorem step_of_rx_frame {s : State} {p : Nat} {bytes : List Byte} {f : Frame} {rest : List Stimulus}
    (hx : s.stimuli = .rx p bytes :: rest) (hfree : s.portBlocked p = false) (hf : decodePacket bytes = .frame f) :
    step s = .next ((decodeOn p bytes (s.setStimuli rest)).setPending (s.pending ++ [.req p f])) := by
  obtain ⟨-, -, -, hpending, -⟩ := decodeOn_frame (s.setStimuli rest) p bytes
  have hreceive : receive p bytes (s.setStimuli rest) =
      .next (submitOn p f (decodeOn p bytes (s.setStimuli rest))) := by
    unfold receive
    rw [hf]
    rfl
  have hfree' : (decodeOn p bytes (s.setStimuli rest)).portBlocked p = false :=
    (portBlocked_congr hpending p).trans hfree
  rw [step_of_ready hx (by simp [ready, hfree]), perform, hreceive, submitOn_of_not_blocked hfree', hpending]
  rfl

/-- Settles O19: the step decodes the packet, which changes the port's accumulator alone, and submits its Frame. -/
theorem anArrivingPacketIsDecodedAndSubmitted : Obligations.AnArrivingPacketIsDecodedAndSubmitted := by
  intro s p bytes f rest hx hfree hf
  obtain ⟨hmem, hslot, hser, -, -, htx, hmg, hstimuli, -⟩ := decodeOn_frame (s.setStimuli rest) p bytes
  refine ⟨_, step_of_rx_frame hx hfree hf, rfl, ?_, hstimuli, hmem, hslot, hser, fun k hk => ?_, htx, hmg, ?_⟩
  · simp [portBlocked_eq_true_iff]
  · rw [State.crcAcc_setPending, crcAcc_decodeOn_of_ne _ hk, State.crcAcc_setStimuli]
  · exact ev_decodeOn_of_frame _ p hf

theorem mgBlocked_enqueue_mgmt (c : Lifecycle) (s : State) : (enqueue (.mgmt c) s).mgBlocked = true := by
  simp [State.mgBlocked, enqueue, Item.isMgmt]

/-- What joining the queue leaves alone. -/
theorem enqueue_frame (it : Item) (s : State) :
    (enqueue it s).mem = s.mem ∧ (enqueue it s).slot = s.slot ∧ (enqueue it s).ser = s.ser ∧
      AccumulatorsSame s (enqueue it s) ∧ OutputsSame s (enqueue it s) :=
  ⟨rfl, rfl, rfl, State.crcAcc_setPending s _, rfl, rfl, rfl⟩

/-- Settles O21: a free `MG` port takes the command, which joins the queue and blocks the port. -/
theorem aLifecycleCommandJoinsTheQueue : Obligations.ALifecycleCommandJoinsTheQueue := by
  intro s id fc h rest hfree
  have hready (op : BitVec 2) : ready (.mg op id fc h) s = true := by simp [ready, hfree]
  exact ⟨fun hx => ⟨enqueue (.mgmt (.create id)) (s.setStimuli rest), step_of_ready hx (hready _), rfl,
      mgBlocked_enqueue_mgmt .., rfl, enqueue_frame ..⟩,
    fun hx => ⟨enqueue (.mgmt (.remove id)) (s.setStimuli rest), step_of_ready hx (hready _), rfl,
      mgBlocked_enqueue_mgmt .., rfl, enqueue_frame ..⟩⟩

/-! ### A packet at a quiescent block -/

theorem slotAt_congr {s t : State} (h : t.slot = s.slot) (fc : Byte) : t.slotAt fc = s.slotAt fc := by
  rw [State.slotAt, h, State.slotAt]

/-- What processing a Request reads: the store, the dispatch table and the outputs, to which it appends. -/
theorem processRequest_eq_of_inputs_eq {s t : State} (hmem : t.mem = s.mem) (hslot : t.slot = s.slot)
    (htx : t.tx = s.tx) (hev : t.ev = s.ev) (p : Nat) (f : Frame) :
    (processRequest p f t).mem = (processRequest p f s).mem ∧ (processRequest p f t).tx = (processRequest p f s).tx ∧
      (processRequest p f t).ev = (processRequest p f s).ev := by
  have hat := slotAt_congr hslot f.functionCode
  obtain ⟨hd, he⟩ | ⟨hd, hv, he⟩ | ⟨hd, hv, he⟩ := processRequest_cases s p f <;> rw [he]
  · rw [processRequest_of_broadcast hd, broadcastOn_eq, broadcastOn_eq, hat, hmem]
    exact ⟨rfl, htx, hev⟩
  · rw [processRequest_of_registered ⟨hd, hmem ▸ hv⟩]
    have hdisp : t.dispatch f.functionCode f.deviceId.toNat f.payload =
        s.dispatch f.functionCode f.deviceId.toNat f.payload := by
      rw [State.dispatch, hat, hmem, State.dispatch]
    simp only [unicastOn, hdisp]
    split <;> simp [takeException, htx, hev]
  · rw [processRequest_of_unknown hd (hmem ▸ hv)]
    exact ⟨hmem, htx, by simp [dropUnknownOn, hev]⟩

/-- R122, R123: with one item in the queue and no input, two steps accept and complete it. -/
theorem run_two_of_single {s : State} {it : Item} (hin : s.stimuli = []) (hser : s.ser = .idle)
    (hpending : s.pending = [it]) :
    Sys2Proof.core.run 2 s = .next (returnToIdle (processItem it ((s.setPending []).setSer (.processing it)))) := by
  have hcomplete : step ((s.setPending []).setSer (.processing it)) =
      .next (returnToIdle (processItem it ((s.setPending []).setSer (.processing it)))) :=
    (step_of_no_stimulus (s := (s.setPending []).setSer (.processing it)) hin).trans (serve_of_processing rfl)
  rw [run_succ_of_step (step_of_idle_cons hin hser hpending), run_succ_of_step hcomplete]
  rfl

/-- Settles O23: the three steps receive, accept and complete; what reception left in its own accumulator and in the
returned value is nothing that processing reads. -/
theorem threeStepsServeAPacketAtAQuiescentBlock : Obligations.ThreeStepsServeAPacketAtAQuiescentBlock := by
  intro s p bytes i hquiet hdec
  obtain ⟨hser, hpending⟩ := (quiescent_eq_true_iff s).1 hquiet
  obtain ⟨f, hf, rfl⟩ := decode_packet_eq_ok_iff.1 hdec
  obtain ⟨hmem, hslot, hser', -, -, htx, hmg, hstimuli, -⟩ := decodeOn_frame (s.setStimuli []) p bytes
  have hev := ev_decodeOn_of_frame (s.setStimuli []) p hf
  have hreceive : step (s.setStimuli [.rx p bytes]) =
      .next ((decodeOn p bytes (s.setStimuli [])).setPending [.req p f]) := by
    have hfree : (s.setStimuli [.rx p bytes]).portBlocked p = false := by simp [State.portBlocked, hpending]
    have hstep := step_of_rx_frame (s := s.setStimuli [.rx p bytes]) rfl hfree hf
    rwa [State.pending_setStimuli, hpending] at hstep
  have hserve := run_two_of_single (s := (decodeOn p bytes (s.setStimuli [])).setPending [.req p f]) hstimuli
    (hser'.trans hser) rfl
  refine ⟨_, _, (run_succ_of_step hreceive 2).trans hserve, exec_instrOfItem (.req p f) s, ?_⟩
  obtain ⟨hm, ht, he⟩ := processRequest_eq_of_inputs_eq (s := s)
    (t := (((decodeOn p bytes (s.setStimuli [])).setPending [.req p f]).setPending []).setSer (.processing (.req p f)))
    hmem hslot htx hev p f
  refine ⟨hm, ht, he, ?_, ?_, ?_, (quiescent_eq_true_iff _).2 ⟨rfl, ?_⟩⟩ <;> simp [processItem, returnToIdle, *]

/-! ### Operations of the arbiter that are not enabled -/

theorem acceptNext_of_not_enabled {s : State} (h : s.ser ≠ .idle ∨ s.pending = []) : acceptNext s = s := by
  obtain ⟨it, rest, hser, hpending, -⟩ | ⟨-, he⟩ := acceptNext_cases s
  · simp [hser, hpending] at h
  · exact he

/-- Settles O41: the model lets each of the three operations wait (log entry 5). -/
theorem anOperationThatIsNotEnabledWaits : Obligations.AnOperationThatIsNotEnabledWaits := by
  intro s p f
  refine ⟨fun h => ?_, fun h => ?_, fun h => ?_⟩
  · exact congrArg Host.Outcome.next (acceptNext_of_not_enabled h)
  · exact congrArg Host.Outcome.next (by simp [completeCurrent, h])
  · exact congrArg Host.Outcome.next (if_pos h)

/-! ### Management that does not pass through the queue, and reset -/

/-- Settles O48: the quiescence test decides, and the one slot is what the command writes. -/
theorem registerHandlerChangesOneSlotOfAQuiescentBlock :
    Obligations.RegisterHandlerChangesOneSlotOfAQuiescentBlock := by
  intro s fc h
  constructor
  · intro hser hpending
    have hquiet : s.quiescent = true := (quiescent_eq_true_iff s).2 ⟨hser, hpending⟩
    refine ⟨(s.setSlot fc h).returnStatus .ok, if_pos hquiet, ?_, fun c hc => ?_, rfl, rfl, rfl, rfl, rfl,
      fun k => ?_, rfl, rfl, rfl⟩
    · rw [State.slotAt_returnStatus, State.slotAt_setSlot, if_pos rfl]
    · rw [State.slotAt_returnStatus, State.slotAt_setSlot, if_neg hc]
    · rw [State.crcAcc_returnStatus, State.crcAcc_setSlot]
  · intro hbusy
    refine if_neg fun hquiet => ?_
    obtain ⟨hser, hpending⟩ := (quiescent_eq_true_iff s).1 hquiet
    exact hbusy.elim (fun h => h hser) fun h => h hpending

/-- Settles O49: no state gives the reserved operation a meaning (U13). -/
theorem theReservedManagementOperationIsRefused : Obligations.TheReservedManagementOperationIsRefused :=
  fun _ => rfl

theorem Memory.device?_reset (d : Nat) : Memory.reset.device? d = if d = 1 then some Device.zero else none := by
  simp [Memory.device?, Memory.reset, Assoc.find?, eq_comm]

theorem crcAcc_reset (k : Codec) : State.reset.crcAcc k = 0xFFFF#16 := by
  cases k <;> rfl

/-- Settles O50: the reset state field by field, and the step that meets reset. -/
theorem resetLeavesTheSpecifiedState : Obligations.ResetLeavesTheSpecifiedState := by
  refine ⟨fun d => ?_, fun a ha => ⟨fun b => ?_, fun b => ?_⟩, fun fc => ?_, rfl, rfl, rfl,
    crcAcc_reset, fun s rest hx => ?_⟩
  · rw [State.reset, Memory.devValid_eq, Memory.device?_reset]
    by_cases hd : d = 1 <;> simp [hd]
  · simp [State.reset, Memory.bit?, Memory.device?_reset, show a < Config.bankSize from ha]
  · simp [State.reset, Memory.word?, Memory.device?_reset, show a < Config.bankSize from ha]
  · rw [State.slotAt_reset]
    simp only [defaultBinding, ← BitVec.toNat_inj]
    rfl
  · have hstep : step s = .next (resetBlock (s.setStimuli rest)) := step_of_ready hx rfl
    exact ⟨_, hstep, rfl, rfl, rfl, rfl, fun k => (crcAcc_reset k ▸ by cases k <;> rfl), ⟨rfl, rfl, rfl⟩, rfl⟩

end Sys2Proof

/-! ### What a step does to the store, the queue and the outputs -/

namespace Sys2Proof

open Machine Safety

/-- R120 in `IDLE`: the Serializer's move writes no cell. -/
theorem mem_of_serve_idle {s t : State} (hser : s.ser = .idle) (h : serve s = .next t) : t.mem = s.mem := by
  cases (serve_of_idle hser).symm.trans h
  exact mem_acceptNext s

/-- Settles O54: the one move that writes the store is the processing of the item in flight, and no handler registers a
device or touches the dispatch table. -/
theorem onlyTheItemInFlightWritesTheStore : Obligations.OnlyTheItemInFlightWritesTheStore := by
  refine ⟨fun s t hstep hrst hidle => ?_, fun s it hturn hser => ?_, fun s t i v hreq hexec => ?_⟩
  · by_cases hturn : SerializersTurn s
    · obtain ⟨l, he⟩ := step_of_serializersTurn hturn
      cases hser : s.ser with
      | idle => exact mem_of_serve_idle (s := s.setStimuli l) hser (he.symm.trans hstep)
      | processing it => exact absurd ⟨hturn, it, hser⟩ hidle
    · obtain ⟨x, rest, hx, hname, -, he⟩ := step_of_not_serializersTurn hturn
      exact mem_of_perform (s := s.setStimuli rest) (fun hr => hrst ⟨rest, hr ▸ hx⟩) hname (he.symm.trans hstep)
  · obtain ⟨l, he⟩ := step_of_serializersTurn hturn
    refine ⟨_, _, he.trans (serve_of_processing hser), exec_instrOfItem it s, ?_, rfl⟩
    rw [processItem_setStimuli]
    rfl
  · cases (exec_request hreq s).symm.trans hexec
    exact ⟨processRequest_slot .., fun d => processRequest_devValid ..⟩

/-! ### The queue -/

/-- What one move does to the queue when it is not a reset (R42, R121, R122): it leaves it, takes its head into flight,
or appends one item. -/
def QueueMoves (s t : State) : Prop :=
  t.pending = s.pending ∨ (∃ it, s.pending = it :: t.pending ∧ s.ser = .idle ∧ t.ser = .processing it) ∨
    ∃ it, t.pending = s.pending ++ [it]

theorem queueMoves_serve {s t : State} (h : serve s = .next t) : QueueMoves s t := by
  obtain ⟨it, -, he⟩ | ⟨-, he⟩ := serve_eq s <;> cases he.symm.trans h
  · obtain ⟨-, -, hpending, -⟩ := processItem_frame s it
    exact .inl hpending
  · obtain ⟨it, rest, hser, hpending, he⟩ | ⟨-, he⟩ := acceptNext_cases s <;> rw [he]
    · exact .inr (.inl ⟨it, hpending, hser, rfl⟩)
    · exact .inl rfl

theorem queueMoves_submitOn (p : Nat) (f : Frame) (s : State) : QueueMoves s (submitOn p f s) := by
  unfold submitOn
  split
  · exact .inl rfl
  · exact .inr (.inr ⟨_, rfl⟩)

theorem queueMoves_perform {x : Stimulus} {s t : State} (hrst : x ≠ .rst) (h : perform x s = .next t) :
    QueueMoves s t := by
  obtain ⟨p, bytes, f, -, rfl⟩ | ⟨p, bytes, rfl⟩ | ⟨op, id, fc, g, c, -, rfl⟩ | ⟨fc, g, rfl⟩ | hserve | ⟨k, w, rfl⟩ |
    ⟨v, rfl⟩ | ⟨hx, -⟩ := perform_next_cases h
  · obtain ⟨-, -, hser, hpending, -⟩ := decodeOn_frame s p bytes
    have hsubmit := queueMoves_submitOn p f (decodeOn p bytes s)
    rwa [QueueMoves, hser, hpending] at hsubmit
  · obtain ⟨-, -, -, hpending, -⟩ := decodeOn_frame s p bytes
    exact .inl hpending
  · exact .inr (.inr ⟨_, rfl⟩)
  · exact .inl rfl
  · exact queueMoves_serve hserve
  · exact .inl (State.pending_setCrcAcc s k w)
  · exact .inl (State.pending_returnValue s v)
  · exact absurd hx hrst

/-- Settles O55: reset empties the queue, and every other move is one of the three. -/
theorem theQueueIsFirstInFirstOut : Obligations.TheQueueIsFirstInFirstOut := by
  intro s t hstep
  have hqueue : QueueMoves s t ∨ (∃ rest, s.stimuli = .rst :: rest) ∧ t.pending = [] := by
    obtain ⟨x, rest, hx, -, he⟩ | ⟨-, he⟩ := step_cases s <;> rw [he] at hstep
    · by_cases hrst : x = .rst
      · subst hrst
        cases hstep
        exact .inr ⟨⟨rest, hx⟩, rfl⟩
      · exact .inl (queueMoves_perform (s := s.setStimuli rest) hrst hstep)
    · exact .inl (queueMoves_serve hstep)
  obtain (h | h | h) | h := hqueue
  · exact .inl h
  · exact .inr (.inl h)
  · exact .inr (.inr (.inl h))
  · exact .inr (.inr (.inr h))

/-! ### The outputs -/

/-- At most one entry was presented on an output port, and none was taken back. -/
def AtMostOneMore {α : Type} (l l' : List α) : Prop := l' = l ∨ ∃ x, l' = l ++ [x]

/-- At most one event, one response and one status. -/
def OutputsGrow (s t : State) : Prop :=
  AtMostOneMore s.ev t.ev ∧ AtMostOneMore s.tx t.tx ∧ AtMostOneMore s.mg t.mg

theorem outputsGrow_of_outputsSame {s t : State} (h : OutputsSame s t) : OutputsGrow s t := by
  obtain ⟨htx, hmg, hev⟩ := h
  exact ⟨.inl hev, .inl htx, .inl hmg⟩

theorem outputsGrow_returnStatus (s : State) (m : Memory) (st : MgStatus) :
    OutputsGrow s ((s.setMem m).returnStatus st) :=
  ⟨.inl rfl, .inl rfl, .inr ⟨st, rfl⟩⟩

/-- R124 to R129: an event for a dropped request, a response for a unicast, a status for a lifecycle command. -/
theorem outputsGrow_processItem (it : Item) (s : State) : OutputsGrow s (processItem it s) := by
  match it with
  | .req p f =>
    obtain ⟨-, he⟩ | ⟨-, -, he⟩ | ⟨-, -, he⟩ := processRequest_cases s p f <;> rw [processItem, he]
    · exact outputsGrow_of_outputsSame ⟨rfl, rfl, rfl⟩
    · obtain ⟨r, hr, -⟩ := unicastOn_eq s p f
      rw [hr]
      exact ⟨.inl (respondOn_ev ..), .inr ⟨_, respondOn_tx ..⟩, .inl (respondOn_mg ..)⟩
    · exact ⟨.inr ⟨_, rfl⟩, .inl rfl, .inl rfl⟩
  | .mgmt (.create id) =>
    obtain ⟨he, -⟩ | ⟨he, -⟩ | ⟨he, -⟩ := createDeviceOn_cases s id <;> rw [processItem, he] <;>
      exact outputsGrow_returnStatus s _ _
  | .mgmt (.remove id) =>
    obtain ⟨he, -⟩ | ⟨he, -⟩ | ⟨he, -⟩ := removeDeviceOn_cases s id <;> rw [processItem, he] <;>
      exact outputsGrow_returnStatus s _ _

theorem outputsSame_acceptNext (s : State) : OutputsSame s (acceptNext s) := by
  obtain ⟨it, rest, -, -, he⟩ | ⟨-, he⟩ := acceptNext_cases s <;> rw [he] <;> exact ⟨rfl, rfl, rfl⟩

theorem outputsGrow_serve {s t : State} (h : serve s = .next t) : OutputsGrow s t := by
  obtain ⟨it, -, he⟩ | ⟨-, he⟩ := serve_eq s <;> cases he.symm.trans h
  · exact outputsGrow_processItem it s
  · exact outputsGrow_of_outputsSame (outputsSame_acceptNext s)

/-- R143: Decode presents the event of a framing failure, or nothing. -/
theorem outputsGrow_decodeOn (p : Nat) (bytes : List Byte) (s : State) : OutputsGrow s (decodeOn p bytes s) := by
  obtain ⟨-, -, -, -, -, htx, hmg, -⟩ := decodeOn_frame s p bytes
  refine ⟨?_, .inl htx, .inl hmg⟩
  cases hd : decodePacket bytes with
  | frame f => exact .inl (ev_decodeOn_of_frame s p hd)
  | shortFrame => exact .inr ⟨_, ev_decodeOn_of_shortFrame s p hd⟩
  | checksumMismatch => exact .inr ⟨_, ev_decodeOn_of_checksumMismatch s p hd⟩

theorem outputsSame_submitOn (p : Nat) (f : Frame) (s : State) : OutputsSame s (submitOn p f s) := by
  unfold submitOn
  split <;> exact ⟨rfl, rfl, rfl⟩

theorem outputsGrow_perform {x : Stimulus} {s t : State} (h : perform x s = .next t) : OutputsGrow s t := by
  obtain ⟨p, bytes, f, -, rfl⟩ | ⟨p, bytes, rfl⟩ | ⟨op, id, fc, g, c, -, rfl⟩ | ⟨fc, g, rfl⟩ | hserve | ⟨k, w, rfl⟩ |
    ⟨v, rfl⟩ | ⟨-, rfl⟩ := perform_next_cases h
  · obtain ⟨htx, hmg, hev⟩ := outputsSame_submitOn p f (decodeOn p bytes s)
    have hdecode := outputsGrow_decodeOn p bytes s
    rwa [OutputsGrow, ← htx, ← hmg, ← hev] at hdecode
  · exact outputsGrow_decodeOn p bytes s
  · exact outputsGrow_of_outputsSame ⟨rfl, rfl, rfl⟩
  · exact outputsGrow_returnStatus (s.setSlot fc g) s.mem .ok
  · exact outputsGrow_serve hserve
  · exact outputsGrow_of_outputsSame (by simp [OutputsSame])
  · exact outputsGrow_of_outputsSame ⟨rfl, rfl, rfl⟩
  · exact outputsGrow_of_outputsSame ⟨rfl, rfl, rfl⟩

/-- Settles O56: a step is the meeting of one input or the Serializer's move. -/
theorem aStepPresentsAtMostOneOutputOfEachKind : Obligations.AStepPresentsAtMostOneOutputOfEachKind := by
  intro s t hstep
  obtain ⟨x, rest, -, -, he⟩ | ⟨-, he⟩ := step_cases s <;> rw [he] at hstep
  · exact outputsGrow_perform (s := s.setStimuli rest) hstep
  · exact outputsGrow_serve hstep

end Sys2Proof

/-! ### The Checksum Unit and the other operations that only return or present a value -/

namespace Sys2Proof

open Machine Safety

/-- Appending to a sequence goes on from its checksum. -/
theorem crc16_append (x y : List Byte) : crc16 (x ++ y) = y.foldl crcStep (crc16 x) :=
  List.foldl_append ..

/-- Settles O1: the fold of R80 and the eight shifts of R81, written out. -/
theorem crc16IsTheFoldOfEightShiftSteps : Obligations.Crc16IsTheFoldOfEightShiftSteps :=
  ⟨rfl, fun x b => crc16_append x [b], fun _ _ => rfl, fun _ _ => rfl⟩

/-- What an operation on accumulator `k` leaves alone: the other accumulators, the store, control and the outputs. -/
def OnlyAccumulatorMayDiffer (k : Codec) (s t : State) : Prop :=
  (∀ j, j ≠ k → t.crcAcc j = s.crcAcc j) ∧ t.mem = s.mem ∧ ControlSame s t ∧ OutputsSame s t

theorem onlyAccumulatorMayDiffer_setCrcAcc (s : State) (k : Codec) (w : Word) :
    OnlyAccumulatorMayDiffer k s (s.setCrcAcc k w) := by
  refine ⟨fun j hj => ?_, ?_, ?_, ?_⟩
  · rw [State.crcAcc_setCrcAcc, if_neg hj]
  · exact State.mem_setCrcAcc s k w
  · simp [ControlSame]
  · simp [OutputsSame]

theorem OnlyAccumulatorMayDiffer.trans {k : Codec} {s t u : State} (h : OnlyAccumulatorMayDiffer k s t)
    (h' : OnlyAccumulatorMayDiffer k t u) : OnlyAccumulatorMayDiffer k s u := by
  obtain ⟨hacc, hmem, ⟨hslot, hser, hpending, hstimuli⟩, htx, hmg, hev⟩ := h
  obtain ⟨hacc', hmem', ⟨hslot', hser', hpending', hstimuli'⟩, htx', hmg', hev'⟩ := h'
  exact ⟨fun j hj => (hacc' j hj).trans (hacc j hj), hmem'.trans hmem, ⟨hslot'.trans hslot, hser'.trans hser,
    hpending'.trans hpending, hstimuli'.trans hstimuli⟩, htx'.trans htx, hmg'.trans hmg, hev'.trans hev⟩

theorem crcAcc_setCrcAcc_self (s : State) (k : Codec) (w : Word) : (s.setCrcAcc k w).crcAcc k = w := by
  rw [State.crcAcc_setCrcAcc, if_pos rfl]

/-- Settles O2: init and update write accumulator `k`, and read writes none. -/
theorem streamingOperationsTouchOnlyTheirAccumulator : Obligations.StreamingOperationsTouchOnlyTheirAccumulator := by
  intro s k b
  refine ⟨⟨_, rfl, crcAcc_setCrcAcc_self s k _, ?_⟩, ⟨_, rfl, crcAcc_setCrcAcc_self s k _, ?_⟩,
    ⟨_, rfl, rfl, State.crcAcc_returnValue s _, rfl, ⟨rfl, rfl, rfl, rfl⟩, rfl, rfl, rfl⟩⟩
  · obtain ⟨hacc, hmem, hcontrol, hout⟩ := onlyAccumulatorMayDiffer_setCrcAcc s k Config.crcInit
    exact ⟨hacc, hmem, hcontrol, hout, State.result_setCrcAcc ..⟩
  · obtain ⟨hacc, hmem, hcontrol, hout⟩ := onlyAccumulatorMayDiffer_setCrcAcc s k (crcStep (s.crcAcc k) b)
    exact ⟨hacc, hmem, hcontrol, hout, State.result_setCrcAcc ..⟩

/-- One update a byte and a read, from any value of the accumulator (R83, R84). -/
theorem execAll_updates_read (k : Codec) (bytes : List Byte) (s : State) :
    ∃ t, execAll (bytes.map (.crcUpdate k) ++ [.crcRead k]) s = .next t ∧
      t.result = some (.checksum (bytes.foldl crcStep (s.crcAcc k))) ∧
      t.crcAcc k = bytes.foldl crcStep (s.crcAcc k) ∧ OnlyAccumulatorMayDiffer k s t := by
  induction bytes generalizing s with
  | nil =>
    exact ⟨_, rfl, rfl, State.crcAcc_returnValue .., fun j _ => State.crcAcc_returnValue .., rfl, ⟨rfl, rfl, rfl, rfl⟩,
      rfl, rfl, rfl⟩
  | cons b bytes ih =>
    obtain ⟨t, hrun, hresult, hacc, hframe⟩ := ih (s.setCrcAcc k (crcStep (s.crcAcc k) b))
    rw [crcAcc_setCrcAcc_self] at hresult hacc
    exact ⟨t, hrun, hresult, hacc, (onlyAccumulatorMayDiffer_setCrcAcc s k _).trans hframe⟩

/-- Settles O3: init puts the accumulator where the fold of R80 starts. -/
theorem streamingChecksumEqualsCrc16 : Obligations.StreamingChecksumEqualsCrc16 := by
  intro s k bytes
  obtain ⟨t, hrun, hresult, hacc, hframe⟩ := execAll_updates_read k bytes (s.setCrcAcc k Config.crcInit)
  rw [crcAcc_setCrcAcc_self] at hresult hacc
  exact ⟨t, hrun, hresult, hacc, (onlyAccumulatorMayDiffer_setCrcAcc s k _).trans hframe⟩

/-- Settles O9: SetException completes for a failure and for nothing else. -/
theorem setExceptionSetsBitSevenAndTheOneCodeByte : Obligations.SetExceptionSetsBitSevenAndTheOneCodeByte := by
  intro s f e
  refine ⟨fun hfail => ?_, fun hok => if_pos hok⟩
  exact ⟨s.returnValue (.frame (setException f e)), excCode e, if_neg hfail, rfl, fun h => h ▸ rfl, fun h => h ▸ rfl,
    fun h => h ▸ rfl, State.crcAcc_returnValue s _, rfl, ⟨rfl, rfl, rfl, rfl⟩, rfl, rfl, rfl⟩

/-- Settles O45: Respond encodes the Frame afresh and presents it. -/
theorem respondPresentsTheEncodedFrame : Obligations.RespondPresentsTheEncodedFrame := by
  intro s p r
  refine ⟨respondOn p r s, rfl, ?_, respondOn_mem s p r⟩
  simp [Answered, ControlSame, encodeFrame_eq_packetOf]

/-! ### The checksum detects every error of one byte -/

/-- A shift loses nothing: the bit shifted out is the top bit of the result, since the polynomial has it. -/
theorem crcShift_injective : Function.Injective crcShift := by
  intro c d h
  have htop (x : Word) : (crcShift x).getLsbD 15 = x.getLsbD 0 := by
    unfold crcShift
    split <;> simp_all [Config.crcPoly]
  have hlow : c.getLsbD 0 = d.getLsbD 0 := by rw [← htop c, h, htop d]
  have hhigh : c >>> 1 = d >>> 1 := by
    unfold crcShift at h
    rw [← hlow] at h
    split at h
    · exact BitVec.xor_left_inj _ |>.1 h
    · exact h
  refine BitVec.eq_of_getLsbD_eq fun i _ => ?_
  cases i with
  | zero => exact hlow
  | succ n => simpa [BitVec.getLsbD_ushiftRight, Nat.add_comm] using congrArg (fun x : Word => x.getLsbD n) hhigh

theorem repeat_injective {α : Type} {f : α → α} (hf : Function.Injective f) (n : Nat) :
    Function.Injective (Nat.repeat f n) := by
  induction n with
  | zero => exact Function.injective_id
  | succ n ih => exact hf.comp ih

theorem crcStep_left_injective (b : Byte) : Function.Injective (crcStep · b) := fun _ _ h =>
  BitVec.xor_left_inj _ |>.1 (repeat_injective crcShift_injective 8 h)

theorem crcStep_right_injective (c : Word) : Function.Injective (crcStep c) := fun a b h => by
  have hbytes := BitVec.xor_right_inj _ |>.1 (repeat_injective crcShift_injective 8 h)
  simpa using congrArg (BitVec.setWidth 8) hbytes

theorem foldl_crcStep_injective (bytes : List Byte) : Function.Injective (bytes.foldl crcStep) := by
  induction bytes with
  | nil => exact Function.injective_id
  | cons b bytes ih => exact ih.comp (crcStep_left_injective b)

/-- Two sequences that differ in one byte have different checksums. -/
theorem crc16_set_ne {bytes : List Byte} {j : Nat} (hj : j < bytes.length) {b : Byte} (hb : b ≠ bytes[j]) :
    crc16 (bytes.set j b) ≠ crc16 bytes := by
  intro h
  have hset : bytes.set j b = bytes.take j ++ b :: bytes.drop (j + 1) :=
    List.set_eq_take_append_cons_drop .. |>.trans (if_pos hj)
  have hself : bytes = bytes.take j ++ bytes[j] :: bytes.drop (j + 1) := by simp
  rw [hset, crc16_append] at h
  conv at h => rhs; rw [hself, crc16_append]
  exact hb (crcStep_right_injective _ (foldl_crcStep_injective _ h))

/-! ### The residue law -/

/-- While the bits shifted out are 0 the shifts are plain. -/
theorem repeat_crcShift_of_low_zero (w : Word) (n : Nat) (h : ∀ i < n, w.getLsbD i = false) :
    Nat.repeat crcShift n w = w >>> n := by
  induction n with
  | zero => simp [Nat.repeat]
  | succ n ih =>
    have hbit : (w >>> n).getLsbD 0 = false := by simpa [BitVec.getLsbD_ushiftRight] using h n (Nat.lt_succ_self n)
    rw [Nat.repeat, ih fun i hi => h i (hi.trans (Nat.lt_succ_self n)), crcShift, hbit]
    simp [BitVec.shiftRight_add]

/-- A step with the low byte of the accumulator shifts its high byte down. -/
theorem crcStep_lo8 (c : Word) : crcStep c (lo8 c) = (hi8 c).setWidth 16 := by
  have hlow : ∀ i < 8, (c ^^^ (lo8 c).setWidth 16).getLsbD i = false := by
    intro i hi
    simp [lo8, hi, show i < 16 by omega]
  rw [crcStep, repeat_crcShift_of_low_zero _ 8 hlow]
  refine BitVec.eq_of_getLsbD_eq fun i hi => ?_
  by_cases h8 : i < 8
  · simp [lo8, hi8, h8, hi]
  · simp [lo8, hi8, h8, BitVec.getLsbD_of_ge c (8 + i) (by omega)]

theorem crcStep_setWidth_self (b : Byte) : crcStep (b.setWidth 16) b = 0#16 := by
  rw [crcStep, BitVec.xor_self, repeat_crcShift_of_low_zero _ 8 fun i _ => BitVec.getLsbD_zero]
  rfl

/-- Two steps end at 0 exactly when the two bytes are the accumulator's own, low byte first. -/
theorem foldl_crcStep_le16_eq_zero_iff (c w : Word) : (le16 w).foldl crcStep c = 0#16 ↔ w = c := by
  have hown (x : Word) : (le16 x).foldl crcStep x = 0#16 := by
    simp only [le16, List.foldl_cons, List.foldl_nil, crcStep_lo8, crcStep_setWidth_self]
  exact ⟨fun h => foldl_crcStep_injective (le16 w) ((hown w).trans h.symm), fun h => h ▸ hown w⟩

/-- A packet's checksum over body and trailer is 0 exactly when the trailer is the body's checksum. -/
theorem crc16_stamped_eq_zero_iff (body : List Byte) (w : Word) : crc16 (body ++ le16 w) = 0#16 ↔ w = crc16 body := by
  rw [crc16_append, foldl_crcStep_le16_eq_zero_iff]

/-- Settles O4: the trailer is the body's checksum. -/
theorem residueOfAStampedSequenceIsZero : Obligations.ResidueOfAStampedSequenceIsZero :=
  fun bytes => (crc16_stamped_eq_zero_iff bytes _).2 rfl

/-- A packet that is long enough is accepted exactly when its residue is 0. -/
theorem readLE16_eq_crc16_iff {bytes : List Byte} (hl : 2 ≤ bytes.length) :
    readLE16 bytes (bytes.length - 2) = crc16 (packetBody bytes) ↔ crc16 bytes = 0#16 := by
  conv_rhs => rw [packet_eq_body_trailer hl]
  exact (crc16_stamped_eq_zero_iff ..).symm

theorem length_flipBit (bytes : List Byte) (i : Nat) : (flipBit bytes i).length = bytes.length :=
  List.length_set

theorem crc16_flipBit_ne {bytes : List Byte} {i : Nat} (hi : i < 8 * bytes.length) :
    crc16 (flipBit bytes i) ≠ crc16 bytes := by
  have hj : i / 8 < bytes.length := by omega
  refine crc16_set_ne hj ?_
  have hmask : ∀ k < 8, 1#8 <<< k ≠ 0#8 := by decide
  have hat : byteAt bytes (i / 8) = bytes[i / 8] := by simp [byteAt, hj]
  intro h
  rw [hat] at h
  exact hmask (i % 8) (Nat.mod_lt i (by decide)) (BitVec.xor_right_inj _ |>.1 (h.trans BitVec.xor_zero.symm))

/-- Settles O5: the packet's residue is 0, and the flipped packet, which differs in one byte, has another. -/
theorem everySingleBitErrorIsAChecksumMismatch : Obligations.EverySingleBitErrorIsAChecksumMismatch := by
  intro s p bytes f i hf hi
  obtain ⟨hlong, hcrc⟩ := stamped_of_decodePacket_frame hf
  have hresidue : crc16 bytes = 0#16 := (readLE16_eq_crc16_iff (by omega)).1 hcrc
  have hlong' : 5 ≤ (flipBit bytes i).length := by rwa [length_flipBit]
  have hmismatch : decodePacket (flipBit bytes i) = .checksumMismatch := by
    refine decodePacket_of_mismatch hlong' ?_
    rw [Ne, readLE16_eq_crc16_iff (by omega), ← hresidue]
    exact crc16_flipBit_ne hi
  obtain ⟨hmem, -, -, hpending, -, htx, -, -, hresult⟩ := decodeOn_frame s p (flipBit bytes i)
  exact ⟨_, rfl, hmismatch ▸ hresult, ev_decodeOn_of_checksumMismatch s p hmismatch, hpending, hmem, htx⟩

end Sys2Proof

/-! ### What a default handler does, said as a function of its device and payload -/

namespace Sys2Proof

open Machine Safety

/-- The four handlers that write (R111 to R114). -/
def HandlerId.isWrite : HandlerId → Bool
  | .wsc => true
  | .wsr => true
  | .wmc => true
  | .wmr => true
  | _ => false

/-- The banks of its device that a default handler leaves when its checks pass. -/
def HandlerId.banksAfter (dev : Device) (payload : List Byte) : HandlerId → Device
  | .wsc => dev.writeBit .co (field0 payload) (decide (field1 payload ≠ 0))
  | .wsr => dev.writeWord .hr (field0 payload) (readBE16 payload 2)
  | .wmc => writeBits dev .co (field0 payload) (field1 payload) (unpackBit (payload.drop 5))
  | .wmr => writeWords dev .hr (field0 payload) (field1 payload) fun i => readBE16 (payload.drop 5) (2 * i)
  | _ => dev

/-- What a default handler answers when its checks pass: the counted data of a read (R56), the echo of a write (R57). -/
def HandlerId.answer (dev : Device) (payload : List Byte) : HandlerId → List Byte
  | .rc => countedData (packBits dev .co (field0 payload) (field1 payload))
  | .rdi => countedData (packBits dev .di (field0 payload) (field1 payload))
  | .rhr => countedData (packWords dev .hr (field0 payload) (field1 payload))
  | .rir => countedData (packWords dev .ir (field0 payload) (field1 payload))
  | _ => payload.take 4

/-- The store that a default handler leaves when its checks pass; a read does not write it. -/
def HandlerId.storeAfter (m : Memory) (d : Nat) (dev : Device) (payload : List Byte) (h : HandlerId) : Memory :=
  if h.isWrite then m.putDevice d (h.banksAfter dev payload) else m

/-- The prologue's checks pass (R100). -/
theorem prologue_of_pass {m : Memory} {d : Nat} {dev : Device} {payload : List Byte} {fmt : Format}
    (hd : m.device? d = some dev) (hlen : fmt.minLength ≤ payload.length)
    (hrange : fmt.ranged = true → field0 payload + field1 payload ≤ 65536) :
    prologue m d payload fmt = .ok ⟨dev, readBE16 payload 0, readBE16 payload 2⟩ :=
  prologue_eq_ok_iff.2 ⟨hd, hlen, fun h => (outOfRange_eq_false_iff ..).2 (hrange h), rfl, rfl⟩

/-- A check of the prologue fails on a registered device (R100, R142). -/
theorem prologue_of_fail {m : Memory} {d : Nat} {dev : Device} {payload : List Byte} {fmt : Format}
    (hd : m.device? d = some dev)
    (hfail : payload.length < fmt.minLength ∨ fmt.ranged = true ∧ 65536 < field0 payload + field1 payload) :
    prologue m d payload fmt = .error .illegalDataAddress :=
  prologue_eq_error_iff.2 (.inr ⟨by simp [Memory.devValid_eq, hd], rfl,
    hfail.imp_right fun ⟨hr, h⟩ => ⟨hr, (outOfRange_eq_true_iff ..).2 h⟩⟩)

/-- R101 to R104, R111 to R114: what a default handler does when its checks pass. -/
theorem runHandler_of_pass {h : HandlerId} (hdef : DefaultHandler h) (hbound : h ≠ .unbound) {m : Memory} {d : Nat}
    {dev : Device} (hd : m.device? d = some dev) {payload : List Byte} (hpass : ¬ ChecksFail h payload) :
    runHandler h m d payload = ⟨h.storeAfter m d dev payload, h.answer dev payload, .success⟩ := by
  have hpro (fmt : Format) := prologue_of_pass (payload := payload) (fmt := fmt) hd
  have hbit : (readBE16 payload 2 != 0#16) = decide (field1 payload ≠ 0) := by
    rw [field1, Bool.eq_iff_iff]; simp [← BitVec.toNat_inj]
  cases h with
  | unbound => exact absurd rfl hbound
  | ext k => exact absurd rfl (hdef k)
  | rc =>
    simp only [ChecksFail, not_or, Nat.not_lt] at hpass
    rw [runHandler, handlerRc, hpro .a hpass.1 fun _ => hpass.2]
    rfl
  | rdi =>
    simp only [ChecksFail, not_or, Nat.not_lt] at hpass
    rw [runHandler, handlerRdi, hpro .a hpass.1 fun _ => hpass.2]
    rfl
  | rhr =>
    simp only [ChecksFail, not_or, Nat.not_lt] at hpass
    rw [runHandler, handlerRhr, hpro .a hpass.1 fun _ => hpass.2]
    rfl
  | rir =>
    simp only [ChecksFail, not_or, Nat.not_lt] at hpass
    rw [runHandler, handlerRir, hpro .a hpass.1 fun _ => hpass.2]
    rfl
  | wsc =>
    simp only [ChecksFail, Nat.not_lt] at hpass
    rw [runHandler, handlerWsc, hpro .b hpass nofun]
    simp only [hbit]
    rfl
  | wsr =>
    simp only [ChecksFail, Nat.not_lt] at hpass
    rw [runHandler, handlerWsr, hpro .b hpass nofun]
    rfl
  | wmc =>
    simp only [ChecksFail, not_or, Nat.not_lt] at hpass
    obtain ⟨hlen, hrange, hdata⟩ := hpass
    have hdata' : ¬ 8 * (dataC payload).length < (readBE16 payload 2).toNat := by
      simpa [dataC, field1] using hdata
    rw [runHandler, handlerWmc, hpro .c hlen fun _ => hrange]
    exact if_neg hdata'
  | wmr =>
    simp only [ChecksFail, not_or, Nat.not_lt, not_not] at hpass
    obtain ⟨hlen, hrange, hdata⟩ := hpass
    have hdata' : (dataC payload).length / 2 = (readBE16 payload 2).toNat := by
      simpa [dataC, field1] using hdata
    rw [runHandler, handlerWmr, hpro .c hlen fun _ => hrange]
    exact if_neg (not_not.2 hdata')

/-- R142: a check that fails is `IllegalDataAddress` before any write. -/
theorem runHandler_of_checksFail {h : HandlerId} {m : Memory} {d : Nat} {dev : Device} (hd : m.device? d = some dev)
    {payload : List Byte} (hfail : ChecksFail h payload) :
    runHandler h m d payload = .raise m .illegalDataAddress := by
  have hpro (fmt : Format) := prologue_of_fail (payload := payload) (fmt := fmt) hd
  cases h with
  | unbound => exact hfail.elim
  | ext k => exact hfail.elim
  | rc => rw [runHandler, handlerRc, hpro .a (hfail.imp_right fun h => ⟨rfl, h⟩)]
  | rdi => rw [runHandler, handlerRdi, hpro .a (hfail.imp_right fun h => ⟨rfl, h⟩)]
  | rhr => rw [runHandler, handlerRhr, hpro .a (hfail.imp_right fun h => ⟨rfl, h⟩)]
  | rir => rw [runHandler, handlerRir, hpro .a (hfail.imp_right fun h => ⟨rfl, h⟩)]
  | wsc => rw [runHandler, handlerWsc, hpro .b (.inl hfail)]
  | wsr => rw [runHandler, handlerWsr, hpro .b (.inl hfail)]
  | wmc =>
    rw [runHandler, handlerWmc]
    by_cases hc : payload.length < 5 ∨ 65536 < field0 payload + field1 payload
    · rw [hpro .c (hc.imp_right fun h => ⟨rfl, h⟩)]
    · have hdata : 8 * (payload.length - 5) < field1 payload := by
        simp only [ChecksFail] at hfail
        tauto
      rw [not_or, Nat.not_lt, Nat.not_lt] at hc
      rw [prologue_of_pass (fmt := .c) hd hc.1 fun _ => hc.2]
      exact if_pos (by simpa [dataC, field1] using hdata)
  | wmr =>
    rw [runHandler, handlerWmr]
    by_cases hc : payload.length < 5 ∨ 65536 < field0 payload + field1 payload
    · rw [hpro .c (hc.imp_right fun h => ⟨rfl, h⟩)]
    · have hdata : (payload.length - 5) / 2 ≠ field1 payload := by
        simp only [ChecksFail] at hfail
        tauto
      rw [not_or, Nat.not_lt, Nat.not_lt] at hc
      rw [prologue_of_pass (fmt := .c) hd hc.1 fun _ => hc.2]
      exact if_pos (by simpa [dataC, field1] using hdata)


/-! ### A request to a registered device -/

/-- The packet that answers a request, given what the handler came back with (R128). -/
def responsePacket (v : RequestView) (res : HandlerResult) : TxPacket :=
  ⟨v.port, if res.exc = .success then packetOf v.dev v.fc res.payload
    else packetOf v.dev (v.fc ||| 0x80#8) [excCode res.exc]⟩

theorem registered_of_devValid_eq {s t : State} {dev : Byte} (h : Registered s dev)
    (hv : ∀ d, t.mem.devValid d = s.mem.devValid d) : Registered t dev :=
  ⟨h.1, (hv _).trans h.2⟩

/-- A request to a registered device executes as its unicast (R124). -/
theorem exec_request_of_registered {i : Instr} {v : RequestView} {s : State} (hreq : i.request? = some v)
    (hreg : Registered s v.dev) :
    exec i s = exec (.unicast v.port (requestFrame v.dev v.fc v.payload)) s := by
  rw [exec_request hreq, processRequest_of_registered (f := requestFrame v.dev v.fc v.payload) hreg]
  rfl

/-- The handler of the slot gives the store and the one response; the dispatch table stays (R128). -/
theorem exec_request_eq_of_registered {i : Instr} {v : RequestView} {s : State} (hreq : i.request? = some v)
    (hreg : Registered s v.dev) {res : HandlerResult}
    (hres : runHandler (s.slotAt v.fc) s.mem v.dev.toNat v.payload = res) :
    ∃ t, exec i s = .next t ∧ t.mem = res.mem ∧ t.slot = s.slot ∧ t.tx = s.tx ++ [responsePacket v res] := by
  subst hres
  obtain ⟨r, hr, hbytes⟩ := unicastOn_eq s v.port (requestFrame v.dev v.fc v.payload)
  refine ⟨_, exec_request_of_registered hreq hreg, ?_⟩
  rw [hr]
  exact ⟨respondOn_mem .., respondOn_slot .., by rw [respondOn_tx, hbytes]; rfl⟩

/-- A request whose handler raises is answered with the exception response (R148). -/
theorem exec_request_of_raise {i : Instr} {v : RequestView} {s : State} (hreq : i.request? = some v)
    (hreg : Registered s v.dev) {e : Exception} (he : e ≠ .success)
    (hrun : runHandler (s.slotAt v.fc) s.mem v.dev.toNat v.payload = .raise s.mem e) :
    ∃ t, exec i s = .next t ∧ t.mem = s.mem ∧ Answered s t v.port v.dev (v.fc ||| 0x80#8) [excCode e] := by
  rw [exec_request_of_registered hreq hreg]
  exact exec_unicast_of_raise (f := requestFrame v.dev v.fc v.payload) he hrun v.port

/-- Settles O33: the failed check is what the handler of the slot raises. -/
theorem aFailedCheckIsIllegalDataAddressAndWritesNothing :
    Obligations.AFailedCheckIsIllegalDataAddressAndWritesNothing := by
  intro s i v hreq hreg hfail
  obtain ⟨dev, hdev⟩ := exists_device_of_registered hreg
  exact exec_request_of_raise (e := .illegalDataAddress) hreq hreg nofun (runHandler_of_checksFail hdev hfail)

theorem defaultBinding_eq_unbound_iff (n : Nat) :
    defaultBinding n = .unbound ↔ n = 0 ∨ (7 ≤ n ∧ n ≤ 14) ∨ 17 ≤ n := by
  unfold defaultBinding
  split_ifs <;> simp <;> omega

/-- A broadcast to an unbound slot touches nothing. -/
theorem exec_request_of_unbound_broadcast {i : Instr} {v : RequestView} {s : State} (hreq : i.request? = some v)
    (hslot : s.slotAt v.fc = .unbound) (hdev : v.dev = 0#8) :
    ∃ t, exec i s = .next t ∧ t.mem = s.mem ∧ OnlyStoreMayDiffer s t := by
  obtain ⟨t, ht, hmem, hframe⟩ := broadcastRunsTheHandlerOnEveryRegisteredDevice s (requestFrame v.dev v.fc v.payload)
  rw [exec_request hreq, processRequest_of_broadcast (f := requestFrame v.dev v.fc v.payload) hdev]
  refine ⟨_, ht, ?_, hframe⟩
  cases ht
  rw [broadcastOn_eq, State.mem_setMem]
  exact broadcast_keeps (P := (· = s.mem)) (fun m d hm => by rw [requestFrame, hslot]; exact hm) rfl _

/-- Settles O32: the slots that R14 leaves unbound, and what the unbound entry raises. -/
theorem anUnboundFunctionCodeIsIllegalFunction : Obligations.AnUnboundFunctionCodeIsIllegalFunction := by
  refine ⟨fun fc => ?_, fun s i v hreq hslot => ⟨fun hreg => ?_, fun hdev => ?_⟩⟩
  · rw [State.slotAt_reset]
    exact defaultBinding_eq_unbound_iff fc.toNat
  · exact exec_request_of_raise (e := .illegalFunction) hreq hreg nofun (by rw [hslot]; rfl)
  · exact exec_request_of_unbound_broadcast hreq hslot hdev

/-! ### What reads answer -/

/-- The bits of a packed run are the cells of the run (R32, R105). -/
theorem packedBits_packBits {m : Memory} {d : Nat} {dev : Device} (hd : m.device? d = some dev) (b : BitBank)
    {a q : Nat} (hrange : a + q ≤ 65536) : PackedBits m d b a q (packBits dev b a q) := by
  refine ⟨length_packBits .., fun i hi => ?_⟩
  rw [length_packBits] at hi
  rw [unpackBit_packBits dev b a q hi]
  by_cases hq : i < q
  · have ha : a + i < Config.bankSize := by simp only [Config.bankSize]; omega
    simp [hq, Memory.bit?, ha, hd]
  · simp [hq]

/-- Settles O24: both handlers pass their checks and answer the packed run. -/
theorem bitReadsAnswerThePackedCells : Obligations.BitReadsAnswerThePackedCells := by
  intro s p dev payload hreg hlen hrange
  obtain ⟨banks, hbanks⟩ := exists_device_of_registered hreg
  have hpass : ¬ (payload.length < 4 ∨ 65536 < field0 payload + field1 payload) := by omega
  refine ⟨fun hslot => ?_, fun hslot => ?_⟩
  · obtain ⟨t, hexec, hmem, hans⟩ := exec_request_of_success (i := .rc p dev payload) rfl hreg hslot
      (runHandler_of_pass (h := .rc) nofun nofun hbanks hpass)
    exact ⟨t, _, hexec, packedBits_packBits hbanks .co hrange, hans, hmem⟩
  · obtain ⟨t, hexec, hmem, hans⟩ := exec_request_of_success (i := .rdi p dev payload) rfl hreg hslot
      (runHandler_of_pass (h := .rdi) nofun nofun hbanks hpass)
    exact ⟨t, _, hexec, packedBits_packBits hbanks .di hrange, hans, hmem⟩

theorem byteAt_append_left {s : List Byte} {i : Nat} (h : i < s.length) (t : List Byte) :
    byteAt (s ++ t) i = byteAt s i := by
  simp [byteAt, List.getElem?_append_left h]

theorem readBE16_append_left {s : List Byte} {i : Nat} (h : i + 1 < s.length) (t : List Byte) :
    readBE16 (s ++ t) i = readBE16 s i := by
  rw [readBE16, byteAt_append_left (Nat.lt_of_succ_lt h), byteAt_append_left h, readBE16]

theorem readBE16_append_be16 (s : List Byte) (w : Word) : readBE16 (s ++ be16 w) s.length = w := by
  simp [readBE16, byteAt, be16]

/-- A packed register stands big-endian at its place (R31, R106). -/
theorem readBE16_packWords (dev : Device) (b : WordBank) (a : Nat) {q i : Nat} (hi : i < q) :
    readBE16 (packWords dev b a q) (2 * i) = dev.readWord b (a + i) := by
  induction q with
  | zero => omega
  | succ q ih =>
    rw [packWords_succ]
    by_cases hq : i < q
    · rw [readBE16_append_left (by rw [length_packWords]; omega), ih hq]
    · obtain rfl : i = q := by omega
      simpa only [length_packWords] using readBE16_append_be16 (packWords dev b a i) (dev.readWord b (a + i))

theorem packedWords_packWords {m : Memory} {d : Nat} {dev : Device} (hd : m.device? d = some dev) (b : WordBank)
    {a q : Nat} (hrange : a + q ≤ 65536) : PackedWords m d b a q (packWords dev b a q) := by
  refine ⟨length_packWords .., fun i hi => ?_⟩
  have ha : a + i < Config.bankSize := by simp only [Config.bankSize]; omega
  simp [readBE16_packWords dev b a hi, Memory.word?, ha, hd]

/-- Settles O25: both handlers pass their checks and answer the registers of the run. -/
theorem wordReadsAnswerTheRegistersBigEndian : Obligations.WordReadsAnswerTheRegistersBigEndian := by
  intro s p dev payload hreg hlen hrange
  obtain ⟨banks, hbanks⟩ := exists_device_of_registered hreg
  have hpass : ¬ (payload.length < 4 ∨ 65536 < field0 payload + field1 payload) := by omega
  refine ⟨fun hslot => ?_, fun hslot => ?_⟩
  · obtain ⟨t, hexec, hmem, hans⟩ := exec_request_of_success (i := .rhr p dev payload) rfl hreg hslot
      (runHandler_of_pass (h := .rhr) nofun nofun hbanks hpass)
    exact ⟨t, _, hexec, packedWords_packWords hbanks .hr hrange, hans, hmem⟩
  · obtain ⟨t, hexec, hmem, hans⟩ := exec_request_of_success (i := .rir p dev payload) rfl hreg hslot
      (runHandler_of_pass (h := .rir) nofun nofun hbanks hpass)
    exact ⟨t, _, hexec, packedWords_packWords hbanks .ir hrange, hans, hmem⟩

/-! ### What writes store -/

theorem Memory.word?_putDevice_of_ne (m : Memory) {d e : Nat} (he : e ≠ d) (dev : Device) (b : WordBank) (a : Nat) :
    (m.putDevice d dev).word? e b a = m.word? e b a := by
  simp [Memory.word?, Memory.device?_putDevice, he]

theorem Memory.word?_putDevice_of_eq {m : Memory} {d : Nat} {dev dev' : Device} (h : m.device? d = some dev)
    {b : WordBank} {a : Nat} (hr : dev'.readWord b a = dev.readWord b a) :
    (m.putDevice d dev').word? d b a = m.word? d b a := by
  simp [Memory.word?, Memory.device?_putDevice, h, hr]

/-- Banks that read alike in every 1-bit cell leave every 1-bit cell of the store alone. -/
theorem Memory.bit?_putDevice_of_readBit_eq {m : Memory} {d : Nat} {dev dev' : Device} (h : m.device? d = some dev)
    (hr : ∀ b a, dev'.readBit b a = dev.readBit b a) (e : Nat) (b : BitBank) (a : Nat) :
    (m.putDevice d dev').bit? e b a = m.bit? e b a := by
  by_cases he : e = d
  · subst he
    exact Memory.bit?_putDevice_of_readBit h (hr b a)
  · exact Memory.bit?_putDevice_of_ne m he dev' b a

/-- The frame of a register write: replacing a registered device's banks by ones that differ only on a run of one 16-bit
bank. -/
theorem onlyWordsWritten_putDevice {m : Memory} {d : Nat} {dev dev' : Device} (h : m.device? d = some dev)
    {b : WordBank} {run : Nat → Prop} (hb : ∀ c a, dev'.readBit c a = dev.readBit c a)
    (hw : ∀ c a, ¬ (c = b ∧ run a) → dev'.readWord c a = dev.readWord c a) :
    OnlyWordsWritten m (m.putDevice d dev') d b run := by
  refine ⟨Memory.devValid_putDevice_of_some h dev', Memory.bit?_putDevice_of_readBit_eq h hb, fun e c a hne => ?_⟩
  by_cases he : e = d
  · subst he
    exact Memory.word?_putDevice_of_eq h (hw c a fun hc => hne ⟨rfl, hc⟩)
  · exact Memory.word?_putDevice_of_ne m he dev' c a

/-- Settles O27: no address fails, and the one register is written. -/
theorem writeSingleRegisterStoresTheWord : Obligations.WriteSingleRegisterStoresTheWord := by
  intro s p dev payload hreg hslot hlen
  obtain ⟨banks, hbanks⟩ := exists_device_of_registered hreg
  obtain ⟨t, hexec, hmem, hans⟩ := exec_request_of_success (i := .wsr p dev payload) rfl hreg hslot
    (runHandler_of_pass (h := .wsr) nofun nofun hbanks (Nat.not_lt.2 hlen))
  refine ⟨t, hexec, ?_, ?_, hans⟩ <;> rw [hmem]
  · refine (Memory.word?_putDevice_self _ _ _ _ (field0_lt_bankSize payload)).trans ?_
    rw [HandlerId.banksAfter, Device.readWord_writeWord, if_pos ⟨rfl, rfl⟩]
  · refine onlyWordsWritten_putDevice hbanks (fun c a => Device.readBit_writeWord ..) fun c a hne => ?_
    rw [HandlerId.banksAfter, Device.readWord_writeWord, if_neg hne]

/-- Settles O28: the checks pass, and `writeBits` changes the coils of the run and no other cell. -/
theorem writeMultipleCoilsStoresExactlyItsRun : Obligations.WriteMultipleCoilsStoresExactlyItsRun := by
  intro s p dev payload hreg hslot hlen hrange hdata
  obtain ⟨banks, hbanks⟩ := exists_device_of_registered hreg
  have hpass : ¬ ChecksFail .wmc payload := by simp only [ChecksFail]; omega
  obtain ⟨t, hexec, hmem, hans⟩ := exec_request_of_success (i := .wmc p dev payload) rfl hreg hslot
    (runHandler_of_pass (h := .wmc) nofun nofun hbanks hpass)
  refine ⟨t, hexec, fun i hi => ?_, ?_, hans⟩ <;> rw [hmem]
  · have ha : field0 payload + i < Config.bankSize := by simp only [Config.bankSize]; omega
    refine (Memory.bit?_putDevice_self _ _ _ _ ha).trans ?_
    rw [HandlerId.banksAfter, readBit_writeBits, if_pos ⟨rfl, by omega, by omega⟩, Nat.add_sub_cancel_left]
  · refine onlyBitsWritten_putDevice hbanks (fun c a => readWord_writeBits ..) fun c a hne => ?_
    rw [HandlerId.banksAfter, readBit_writeBits, if_neg hne]

/-- Settles O29: the checks pass, and `writeWords` changes the registers of the run and no other cell. -/
theorem writeMultipleRegistersStoresExactlyItsRun : Obligations.WriteMultipleRegistersStoresExactlyItsRun := by
  intro s p dev payload hreg hslot hlen hrange hdata
  obtain ⟨banks, hbanks⟩ := exists_device_of_registered hreg
  have hpass : ¬ ChecksFail .wmr payload := by simp only [ChecksFail]; omega
  obtain ⟨t, hexec, hmem, hans⟩ := exec_request_of_success (i := .wmr p dev payload) rfl hreg hslot
    (runHandler_of_pass (h := .wmr) nofun nofun hbanks hpass)
  refine ⟨t, hexec, fun i hi => ?_, ?_, hans⟩ <;> rw [hmem]
  · have ha : field0 payload + i < Config.bankSize := by simp only [Config.bankSize]; omega
    refine (Memory.word?_putDevice_self _ _ _ _ ha).trans ?_
    rw [HandlerId.banksAfter, readWord_writeWords, if_pos ⟨rfl, by omega, by omega⟩, Nat.add_sub_cancel_left]
  · refine onlyWordsWritten_putDevice hbanks (fun c a => readBit_writeWords ..) fun c a hne => ?_
    rw [HandlerId.banksAfter, readWord_writeWords, if_neg hne]

end Sys2Proof

/-! ### Writing registers and reading them back -/

namespace Sys2Proof

open Machine Safety

@[simp] theorem field0_be16_append (a : Word) (l : List Byte) : field0 (be16 a ++ l) = a.toNat := by
  simp [field0, readBE16, byteAt, be16]

@[simp] theorem field1_be16_append (a q : Word) (l : List Byte) : field1 (be16 a ++ (be16 q ++ l)) = q.toNat := by
  simp [field1, readBE16, byteAt, be16]

theorem readBE16_be16_append_two (a w : Word) : readBE16 (be16 a ++ be16 w) 2 = w := readBE16_append_be16 (be16 a) w

@[simp] theorem length_be16 (w : Word) : (be16 w).length = 2 := rfl

/-- Data of an even length is what its registers are (R31). -/
theorem eq_of_readBE16_eq {q : Nat} {x y : List Byte} (hx : x.length = 2 * q) (hy : y.length = 2 * q)
    (h : ∀ i < q, readBE16 x (2 * i) = readBE16 y (2 * i)) : x = y := by
  have hbyte : ∀ i < 2 * q, byteAt x i = byteAt y i := by
    intro i hi
    have hword := h (i / 2) (by omega)
    obtain heven | hodd := Nat.mod_two_eq_zero_or_one i
    · rw [show 2 * (i / 2) = i by omega] at hword
      simpa only [readBE16, hi8_word] using congrArg hi8 hword
    · have hlow := congrArg lo8 hword
      simp only [readBE16, lo8_word] at hlow
      rwa [show 2 * (i / 2) + 1 = i by omega] at hlow
  refine List.ext_getElem (hx.trans hy.symm) fun i hi hi' => ?_
  simpa [byteAt, hi, hi'] using hbyte i (hx ▸ hi)

/-- Read Holding Registers answers data that the run holds (R103). -/
theorem exec_rhr_of_run_holds {s : State} {dev : Byte} {addr q : Word} {data : List Byte} (hreg : Registered s dev)
    (hslot : s.slotAt 0x03#8 = .rhr) (hrange : addr.toNat + q.toNat ≤ 65536) (hlen : data.length = 2 * q.toNat)
    (hcells : ∀ i < q.toNat, s.mem.word? dev.toNat .hr (addr.toNat + i) = some (readBE16 data (2 * i))) (p : Nat) :
    ∃ u, exec (.rhr p dev (be16 addr ++ be16 q)) s = .next u ∧
      Answered s u p dev 0x03#8 (BitVec.ofNat 8 data.length :: data) := by
  have hf0 : field0 (be16 addr ++ be16 q) = addr.toNat := field0_be16_append addr (be16 q)
  have hf1 : field1 (be16 addr ++ be16 q) = q.toNat := congrArg BitVec.toNat (readBE16_be16_append_two addr q)
  obtain ⟨hrhr, -⟩ := wordReadsAnswerTheRegistersBigEndian s p dev (be16 addr ++ be16 q) hreg (by simp)
    (by rw [hf0, hf1]; exact hrange)
  obtain ⟨u, read, hexec, ⟨hreadlen, hread⟩, hans, -⟩ := hrhr hslot
  rw [hf1] at hreadlen
  rw [hf0, hf1] at hread
  have heq : read = data := eq_of_readBE16_eq hreadlen hlen fun i hi =>
    Option.some.inj ((hread i hi).trans (hcells i hi))
  exact ⟨u, hexec, heq ▸ hans⟩

theorem slotAt_of_answered {s t : State} {p : Nat} {dev fc : Byte} {payload : List Byte}
    (h : Answered s t p dev fc payload) (c : Byte) : t.slotAt c = s.slotAt c := by
  obtain ⟨-, -, -, -, -, hslot, -⟩ := h
  exact slotAt_congr hslot c

/-- Settles O30: the write leaves the value in the register, and the read answers a run of one. -/
theorem aRegisterReadsBackWhatWasWritten : Obligations.ARegisterReadsBackWhatWasWritten := by
  intro s p q dev addr value hreg hwsr hrhr
  obtain ⟨t, hwrite, hcell, ⟨hvalid, -⟩, hans⟩ :=
    writeSingleRegisterStoresTheWord s p dev (be16 addr ++ be16 value) hreg hwsr (by simp)
  rw [field0_be16_append, readBE16_be16_append_two] at hcell
  obtain ⟨u, hread, hans'⟩ := exec_rhr_of_run_holds (q := 1#16) (data := be16 value)
    (registered_of_devValid_eq hreg hvalid) ((slotAt_of_answered hans _).trans hrhr) (Nat.succ_le_of_lt addr.isLt) rfl
    (fun i hi => by
      obtain rfl : i = 0 := Nat.lt_one_iff.1 hi
      exact hcell.trans (congrArg some (readBE16_append_be16 [] value).symm)) q
  exact ⟨t, u, hwrite, hread, hans'⟩

/-- Settles O31: the write leaves the data in the run, and the read answers it. -/
theorem aRegisterRunReadsBackWhatWasWritten : Obligations.ARegisterRunReadsBackWhatWasWritten := by
  rintro s p r dev addr q b data hreg hwmr hrhr hrange - hlen
  have hf0 : field0 (be16 addr ++ be16 q ++ b :: data) = addr.toNat := by simp
  have hf1 : field1 (be16 addr ++ be16 q ++ b :: data) = q.toNat := by simp
  have hdrop : (be16 addr ++ be16 q ++ b :: data).drop 5 = data := rfl
  have hlen5 : (be16 addr ++ be16 q ++ b :: data).length = data.length + 5 := rfl
  obtain ⟨t, hwrite, hcells, ⟨hvalid, -⟩, hans⟩ :=
    writeMultipleRegistersStoresExactlyItsRun s p dev (be16 addr ++ be16 q ++ b :: data) hreg hwmr (by omega)
      (by omega) (by omega)
  rw [hf0, hf1, hdrop] at hcells
  obtain ⟨u, hread, hans'⟩ := exec_rhr_of_run_holds (registered_of_devValid_eq hreg hvalid)
    ((slotAt_of_answered hans _).trans hrhr) hrange hlen hcells r
  exact ⟨t, u, hwrite, hread, hlen ▸ hans'⟩

/-! ### The three outcomes of a default handler on a registered device -/

theorem runHandler_registered_cases {h : HandlerId} (hdef : DefaultHandler h) {m : Memory} {d : Nat} {dev : Device}
    (hd : m.device? d = some dev) (payload : List Byte) :
    runHandler h m d payload = .raise m .illegalFunction ∨ runHandler h m d payload = .raise m .illegalDataAddress ∨
      h ≠ .unbound ∧ ¬ ChecksFail h payload ∧
        runHandler h m d payload = ⟨h.storeAfter m d dev payload, h.answer dev payload, .success⟩ := by
  by_cases hbound : h = .unbound
  · exact .inl (hbound ▸ rfl)
  · by_cases hfail : ChecksFail h payload
    · exact .inr (.inl (runHandler_of_checksFail hd hfail))
    · exact .inr (.inr ⟨hbound, hfail, runHandler_of_pass hdef hbound hd hfail⟩)

/-! ### No default handler answers code 4 -/

theorem packetOf_injective {dev dev' fc fc' : Byte} {payload payload' : List Byte}
    (h : packetOf dev fc payload = packetOf dev' fc' payload') : dev = dev' ∧ fc = fc' ∧ payload = payload' := by
  have hbody := (List.append_inj' h rfl).1
  simpa using hbody

/-- A read answers a count, which is 0 when it is alone; a write answers four bytes. -/
theorem answer_ne_singleton_four {h : HandlerId} (hdef : DefaultHandler h) (hbound : h ≠ .unbound) {payload : List Byte}
    (hpass : ¬ ChecksFail h payload) (dev : Device) : h.answer dev payload ≠ [4#8] := by
  have hread (data : List Byte) : countedData data ≠ [4#8] := by
    cases data <;> simp [countedData, count8]
  have hwrite (hlen : 4 ≤ payload.length) : payload.take 4 ≠ [4#8] := by
    intro h
    have := congrArg List.length h
    rw [List.length_take, Nat.min_eq_left hlen] at this
    cases this
  cases h with
  | unbound => exact absurd rfl hbound
  | ext k => exact absurd rfl (hdef k)
  | rc => exact hread _
  | rdi => exact hread _
  | rhr => exact hread _
  | rir => exact hread _
  | wsc => exact hwrite (Nat.not_lt.1 hpass)
  | wsr => exact hwrite (Nat.not_lt.1 hpass)
  | wmc => exact hwrite (by simp only [ChecksFail] at hpass; omega)
  | wmr => exact hwrite (by simp only [ChecksFail] at hpass; omega)

/-- Settles O36: only a unicast to a registered device is answered, where the handler raises another exception or
answers something else than the one byte 4. -/
theorem noRequestIsAnsweredSlaveDeviceFailure : Obligations.NoRequestIsAnsweredSlaveDeviceFailure := by
  rintro s t i v hreq hdef hexec ⟨htx, -⟩
  by_cases hreg : Registered s v.dev
  · obtain ⟨dev, hdev⟩ := exists_device_of_registered hreg
    obtain ⟨t', hexec', -, -, htx'⟩ := exec_request_eq_of_registered hreq hreg rfl
    cases hexec.symm.trans hexec'
    have hpacket := (List.singleton_injective (List.append_cancel_left (htx'.symm.trans htx)))
    rw [responsePacket, TxPacket.mk.injEq] at hpacket
    obtain ⟨-, hbytes⟩ := hpacket
    obtain hr | hr | ⟨hbound, hpass, hr⟩ := runHandler_registered_cases hdef hdev v.payload <;> rw [hr] at hbytes
    · obtain ⟨-, -, h⟩ := packetOf_injective hbytes
      cases h
    · obtain ⟨-, -, h⟩ := packetOf_injective hbytes
      cases h
    · obtain ⟨-, -, h⟩ := packetOf_injective hbytes
      exact answer_ne_singleton_four hdef hbound hpass dev h
  · have hsilent : (processRequest v.port (requestFrame v.dev v.fc v.payload) s).tx = s.tx := by
      obtain ⟨-, he⟩ | ⟨hd, hv, -⟩ | ⟨-, -, he⟩ := processRequest_cases s v.port (requestFrame v.dev v.fc v.payload)
      · rw [he]; rfl
      · exact absurd ⟨hd, hv⟩ hreg
      · rw [he]; rfl
    cases (exec_request hreq s).symm.trans hexec
    rw [hsilent] at htx
    simp at htx

end Sys2Proof

/-! ### A default handler depends on its own device -/

namespace Sys2Proof

open Machine Safety

theorem device?_storeAfter {m : Memory} {d : Nat} {dev : Device} (hd : m.device? d = some dev) (h : HandlerId)
    (payload : List Byte) : (h.storeAfter m d dev payload).device? d = some (h.banksAfter dev payload) := by
  cases h <;> simp [HandlerId.storeAfter, HandlerId.isWrite, HandlerId.banksAfter, Memory.device?_putDevice, hd]

/-- R116: what a default handler leaves on its device and answers is fixed by the device and the payload. -/
theorem runHandler_depends_on_device {h : HandlerId} (hdef : DefaultHandler h) (d : Nat) (dev : Device)
    (payload : List Byte) :
    ∃ banks resp exc, ∀ m, m.device? d = some dev →
      (runHandler h m d payload).mem.device? d = some banks ∧ (runHandler h m d payload).payload = resp ∧
        (runHandler h m d payload).exc = exc := by
  by_cases hbound : h = .unbound
  · exact ⟨dev, [], .illegalFunction, fun m hd => hbound ▸ ⟨hd, rfl, rfl⟩⟩
  · by_cases hfail : ChecksFail h payload
    · exact ⟨dev, [], .illegalDataAddress, fun m hd => by rw [runHandler_of_checksFail hd hfail]; exact ⟨hd, rfl, rfl⟩⟩
    · refine ⟨h.banksAfter dev payload, h.answer dev payload, .success, fun m hd => ?_⟩
      rw [runHandler_of_pass hdef hbound hd hfail]
      exact ⟨device?_storeAfter hd h payload, rfl, rfl⟩

theorem runHandler_congr {h : HandlerId} (hdef : DefaultHandler h) {m m' : Memory} {d : Nat} {dev : Device}
    (hd : m.device? d = some dev) (hd' : m'.device? d = some dev) (payload : List Byte) :
    (runHandler h m d payload).mem.device? d = (runHandler h m' d payload).mem.device? d ∧
      (runHandler h m d payload).payload = (runHandler h m' d payload).payload ∧
      (runHandler h m d payload).exc = (runHandler h m' d payload).exc := by
  obtain ⟨banks, resp, exc, hrun⟩ := runHandler_depends_on_device hdef d dev payload
  obtain ⟨hmem, hresp, hexc⟩ := hrun m hd
  obtain ⟨hmem', hresp', hexc'⟩ := hrun m' hd'
  exact ⟨hmem.trans hmem'.symm, hresp.trans hresp'.symm, hexc.trans hexc'.symm⟩

theorem responsePacket_congr (v : RequestView) {r r' : HandlerResult} (hpayload : r.payload = r'.payload)
    (hexc : r.exc = r'.exc) : responsePacket v r = responsePacket v r' := by
  rw [responsePacket, hpayload, hexc, responsePacket]

/-- Settles O60: the handler depends on its device alone and writes no other. -/
theorem aRequestSeesAndTouchesOnlyItsOwnDevice : Obligations.ARequestSeesAndTouchesOnlyItsOwnDevice := by
  intro s s' i v hreq hreg hdef hslot hsame
  obtain ⟨dev, hdev⟩ := exists_device_of_registered hreg
  have hreg' : Registered s' v.dev := ⟨hreg.1, by rw [Memory.devValid_eq, hsame, hdev]; rfl⟩
  obtain ⟨t, hexec, hmem, -, htx⟩ := exec_request_eq_of_registered hreq hreg rfl
  obtain ⟨t', hexec', hmem', -, htx'⟩ := exec_request_eq_of_registered hreq hreg' rfl
  rw [hslot] at hmem' htx'
  obtain ⟨hbanks, hpayload, hexc⟩ := runHandler_congr hdef hdev (hsame.trans hdev) v.payload
  refine ⟨t, t', _, hexec, hexec', htx, ?_, ?_, fun d hd => ?_⟩
  · rw [htx', responsePacket_congr v hpayload hexc]
  · rw [hmem, hmem', hbanks]
  · rw [hmem, device?_runHandler_of_ne hdef _ hd]

/-! ### A broadcast, device by device -/

theorem device?_foldl_runHandler_of_not_mem {h : HandlerId} (hdef : DefaultHandler h) (payload : List Byte)
    {l : List Nat} {d : Nat} (hd : d ∉ l) (m : Memory) :
    (l.foldl (fun m e => (runHandler h m e payload).mem) m).device? d = m.device? d := by
  induction l generalizing m with
  | nil => rfl
  | cons e l ih =>
    rw [List.mem_cons, not_or] at hd
    obtain ⟨hde, hdl⟩ := hd
    rw [List.foldl_cons, ih hdl, device?_runHandler_of_ne hdef m hde]

/-- A device of the run is served once, and finds itself as it was before the run. -/
theorem device?_foldl_runHandler_of_mem {h : HandlerId} (hdef : DefaultHandler h) (payload : List Byte) {l : List Nat}
    (hl : l.Nodup) {d : Nat} (hd : d ∈ l) {dev : Device} {m m' : Memory} (hm : m.device? d = some dev)
    (hm' : m'.device? d = some dev) :
    (l.foldl (fun m e => (runHandler h m e payload).mem) m').device? d = (runHandler h m d payload).mem.device? d := by
  induction l generalizing m' with
  | nil => cases hd
  | cons e l ih =>
    obtain ⟨hel, hl⟩ := List.nodup_cons.1 hl
    rw [List.foldl_cons]
    by_cases hde : d = e
    · subst hde
      rw [device?_foldl_runHandler_of_not_mem hdef payload hel]
      exact (runHandler_congr hdef hm' hm payload).1
    · exact ih hl ((List.mem_cons.1 hd).resolve_left hde) ((device?_runHandler_of_ne hdef m' hde payload).trans hm')

/-- Settles O43: each device of the run ends as its own unicast leaves it, and no other device changes. -/
theorem aBroadcastActsOnEachDeviceAsAUnicastWould : Obligations.ABroadcastActsOnEachDeviceAsAUnicastWould := by
  intro s i v hreq hbroadcast hdef
  obtain ⟨t, ht, -, hframe⟩ := broadcastRunsTheHandlerOnEveryRegisteredDevice s (requestFrame v.dev v.fc v.payload)
  have hexec := exec_request hreq s
  rw [processRequest_of_broadcast (f := requestFrame v.dev v.fc v.payload) hbroadcast] at hexec
  cases ht
  refine ⟨_, hexec, hframe, fun dev hreg hmax => ?_, fun d hd => ?_⟩
  · obtain ⟨u, hu, hmem, -⟩ :=
      exec_request_eq_of_registered (request?_instrOfRequest v.port dev v.fc v.payload) hreg rfl
    refine ⟨u, hu, ?_⟩
    obtain ⟨banks, hbanks⟩ := exists_device_of_registered hreg
    have hmin : 1 ≤ dev.toNat := Nat.one_le_iff_ne_zero.2 fun h0 => hreg.1 (BitVec.eq_of_toNat_eq h0)
    have hin : dev.toNat ∈ s.mem.registered := Memory.mem_registered.2 ⟨⟨hmin, hmax⟩, hreg.2⟩
    rw [hmem]
    exact device?_foldl_runHandler_of_mem hdef v.payload s.mem.registered_nodup hin hbanks hbanks
  · have hout : d ∉ s.mem.registered := by
      rw [Memory.mem_registered, Config.devMin, Config.devMax]
      rintro ⟨⟨hmin, hmax⟩, hvalid⟩
      simp [hvalid] at hd
      omega
    exact device?_foldl_runHandler_of_not_mem hdef v.payload hout s.mem

/-! ### A request performed twice -/

theorem storeReadsSame_refl (m : Memory) : StoreReadsSame m m := ⟨fun _ => rfl, fun _ _ _ => rfl, fun _ _ _ => rfl⟩

theorem storeReadsSame_putDevice {m : Memory} {d : Nat} {dev dev' : Device} (hd : m.device? d = some dev)
    (hb : ∀ b a, dev'.readBit b a = dev.readBit b a) (hw : ∀ b a, dev'.readWord b a = dev.readWord b a) :
    StoreReadsSame m (m.putDevice d dev') :=
  ⟨Memory.devValid_putDevice_of_some hd dev', Memory.bit?_putDevice_of_readBit_eq hd hb,
    Memory.word?_putDevice_of_readWord hd hw⟩

/-- Writing the same again changes no bit. -/
theorem readBit_banksAfter_twice (h : HandlerId) (dev : Device) (payload : List Byte) (b : BitBank) (a : Nat) :
    (h.banksAfter (h.banksAfter dev payload) payload).readBit b a = (h.banksAfter dev payload).readBit b a := by
  cases h with
  | wsc => simp only [HandlerId.banksAfter, Device.readBit_writeBit]; split <;> rfl
  | wmc => simp only [HandlerId.banksAfter, readBit_writeBits]; split <;> rfl
  | _ => simp [HandlerId.banksAfter]

/-- Writing the same again changes no word. -/
theorem readWord_banksAfter_twice (h : HandlerId) (dev : Device) (payload : List Byte) (b : WordBank) (a : Nat) :
    (h.banksAfter (h.banksAfter dev payload) payload).readWord b a = (h.banksAfter dev payload).readWord b a := by
  cases h with
  | wsr => simp only [HandlerId.banksAfter, Device.readWord_writeWord]; split <;> rfl
  | wmr => simp only [HandlerId.banksAfter, readWord_writeWords]; split <;> rfl
  | _ => simp [HandlerId.banksAfter]

theorem answer_banksAfter (h : HandlerId) (dev : Device) (payload : List Byte) :
    h.answer (h.banksAfter dev payload) payload = h.answer dev payload := by
  cases h <;> rfl

theorem storeReadsSame_storeAfter_twice {m : Memory} {d : Nat} {h : HandlerId} {dev : Device} {payload : List Byte}
    (hd : m.device? d = some (h.banksAfter dev payload)) :
    StoreReadsSame m (h.storeAfter m d (h.banksAfter dev payload) payload) := by
  unfold HandlerId.storeAfter
  split
  · exact storeReadsSame_putDevice hd (readBit_banksAfter_twice h dev payload) (readWord_banksAfter_twice h dev payload)
  · exact storeReadsSame_refl _

/-- R39 for one handler: on the store that it left, it writes nothing new and answers alike. -/
theorem runHandler_twice {h : HandlerId} (hdef : DefaultHandler h) {m m' : Memory} {d : Nat} {dev : Device}
    (hd : m.device? d = some dev) {payload : List Byte} (hm' : m' = (runHandler h m d payload).mem) :
    StoreReadsSame m' (runHandler h m' d payload).mem ∧
      (runHandler h m' d payload).payload = (runHandler h m d payload).payload ∧
      (runHandler h m' d payload).exc = (runHandler h m d payload).exc := by
  by_cases hbound : h = .unbound
  · subst hbound hm'
    exact ⟨storeReadsSame_refl _, rfl, rfl⟩
  · by_cases hfail : ChecksFail h payload
    · rw [runHandler_of_checksFail hd hfail] at hm' ⊢
      subst hm'
      rw [HandlerResult.raise, runHandler_of_checksFail hd hfail]
      exact ⟨storeReadsSame_refl _, rfl, rfl⟩
    · rw [runHandler_of_pass hdef hbound hd hfail] at hm' ⊢
      have hd' : m'.device? d = some (h.banksAfter dev payload) := hm' ▸ device?_storeAfter hd h payload
      rw [runHandler_of_pass hdef hbound hd' hfail]
      exact ⟨storeReadsSame_storeAfter_twice hd', answer_banksAfter h dev payload, rfl⟩

/-- Settles O59: the second execution runs the same handler on the store that the first left. -/
theorem requestsToDefaultHandlersAreIdempotent : Obligations.RequestsToDefaultHandlersAreIdempotent := by
  intro s i v hreq hreg hdef
  obtain ⟨dev, hdev⟩ := exists_device_of_registered hreg
  obtain ⟨t, ht, hmem, hslot, htx⟩ := exec_request_eq_of_registered hreq hreg rfl
  have hreg' : Registered t v.dev :=
    registered_of_devValid_eq hreg fun d => by rw [hmem, devValid_runHandler]
  obtain ⟨u, hu, hmem', -, htx'⟩ := exec_request_eq_of_registered hreq hreg' rfl
  obtain ⟨hreads, hpayload, hexc⟩ := runHandler_twice hdef hdev hmem
  rw [slotAt_congr hslot] at hmem' htx'
  refine ⟨t, u, _, ht, hu, hmem' ▸ hreads, htx, ?_⟩
  rw [htx', responsePacket_congr v hpayload hexc]

end Sys2Proof
